-- ==== Sys2Proof/Word.lean ====
section
/-!
DEFINITION. The word type and its plainest arithmetic.

The spec leaves every width to a build-time parameter (00_scope.md rule R8, rule R10), so a value of the core is a
natural number and its width is a bound (`WellFormed.lean`, `Safety.lean`), never a type: one model then covers every
field layout.
-/

namespace Sys2Proof

/-- A `W`-bit command or response word (30_encoding.md rule R60), as the unsigned number its bits stand for. -/
abbrev Word := Nat

/-- `trunc_N(v) = v mod 2^N` keeps the low `N` bits (00_scope.md rule R13). -/
def trunc (n v : Nat) : Nat := v % 2 ^ n

end Sys2Proof
end

