-- ==== Sys2Proof/Config.lean ====
section
/-!
DEFINITION. What an implementation fixes (00_scope.md rules R8 to R12) and the free values.

A configuration is plain data: every command's meaning and every statement holds for each well-formed one
(`WellFormed.lean`). The opaque constants at the end are the free values: they have no body, so nothing can be proved
of the values they give.
-/

namespace Sys2Proof

/-- An inclusive bit range `hi:lo` of a word (00_scope.md rule R8, rule R13). -/
structure BitRange where
  hi : Nat
  lo : Nat
  deriving DecidableEq, Repr

/-- `hi - lo + 1` for a range with `hi >= lo` (00_scope.md rule R8). -/
def BitRange.width (r : BitRange) : Nat := r.hi + 1 - r.lo

/-- The FieldLayout: the word width `W` and the four field ranges, shared by command words and response words
(00_scope.md rule R8, 30_encoding.md rule R60). -/
structure Layout where
  wordWidth : Nat
  opcode : BitRange
  address : BitRange
  data : BitRange
  value : BitRange
  deriving DecidableEq, Repr

/-- The seven opcode values `OPC_READ .. OPC_STATUS` (00_scope.md rule R9). -/
structure Opcodes where
  read : Nat
  write : Nat
  reset : Nat
  step : Nat
  start : Nat
  pause : Nat
  status : Nat
  deriving DecidableEq, Repr

/-- `EX_IN_RESET`: whether the EX stage's combinational outputs are suppressed while the reset line is high
(70_reset_and_hazards.md rule R224). -/
inductive ExInReset where
  | active
  | gated
  deriving DecidableEq, Repr

/-- `STEP_REARM`: what a STEP does while a step count is in progress (41_cycle_control.md rule R131). -/
inductive StepRearm where
  | reload
  | ignore
  | extend
  deriving DecidableEq, Repr

/-- A run of peripheral locations `base .. base + size - 1` that the peripheral's reset sets to one value. -/
structure ResetRegion where
  base : Nat
  size : Nat
  value : Nat
  deriving DecidableEq, Repr

/-- When the peripheral's registered read looks at the addressed location: before the core's write or reset of the same
edge, as the reference peripheral's `rd` does (20_memory.md rule R56), or at what the whole edge leaves. The spec leaves
it to the peripheral; both meet P_RD for every READ, in whose cycle the core neither writes nor resets (rule R44). -/
inductive ReadTiming where
  | beforeAccess
  | afterEdge
  deriving DecidableEq, Repr

/-- The configuration: the core's own parameters (00_scope.md rules R8, R9; 41_cycle_control.md rule R131;
70_reset_and_hazards.md rule R224) and the environment's (00_scope.md rule R11). It is fixed for a run and is not part
of the core's stored state (10_state.md rule R27). -/
structure Config where
  layout : Layout
  opcodes : Opcodes
  exInReset : ExInReset
  stepRearm : StepRearm
  /-- `TX_FULL_MARGIN`: `txFull` is asserted when at most this many slots are free (rule R227). -/
  txFullMargin : Nat
  rxDepth : Nat
  txDepth : Nat
  /-- How many locations the peripheral has: `0 .. locations - 1` (rule R11, rule R40). -/
  locations : Nat
  /-- What the peripheral's reset sets, and to which values; a location in no region keeps its content
  (rule R11, 20_memory.md rule R42). -/
  resetRegions : List ResetRegion
  /-- When the peripheral's read looks at a location that the same edge writes or resets (log entry 2). -/
  readTiming : ReadTiming
  deriving DecidableEq, Repr

/-- The reference field layout (00_scope.md rule R12). -/
def Layout.reference : Layout :=
  { wordWidth := 32
    opcode := ⟨31, 28⟩
    address := ⟨27, 20⟩
    data := ⟨19, 12⟩
    value := ⟨11, 0⟩ }

/-- The reference opcode values (00_scope.md rule R12). -/
def Opcodes.reference : Opcodes :=
  { read := 1, write := 2, reset := 3, step := 4, start := 5, pause := 6, status := 7 }

/-- The reference configuration (00_scope.md rule R12) in the reference environment (20_memory.md rule R56, rule R57;
95_test_vectors.md): what `State.reset` and `decodeTableWord` need a number for. DESIGN CHOICE (log entry 1): the spec
leaves the configuration open; no meaning rests on this one. -/
def Config.reference : Config :=
  { layout := Layout.reference
    opcodes := Opcodes.reference
    exInReset := .active
    stepRearm := .reload
    txFullMargin := 0
    rxDepth := 8
    txDepth := 8
    locations := 256
    resetRegions := [⟨0, 256, 0⟩]
    readTiming := .beforeAccess }

/-! ### Free values

Each takes the number of the cycle, so it is fresh in each cycle (42_response_compose.md rule R165), and is cut to its
signal's width where it is used. -/

/-- The don't-care draw of a response's address field (42_response_compose.md rule R162, rule R165; log entry 4). -/
opaque Config.drawAddress (cycle : Nat) : Nat

/-- The don't-care draw of a response's data field (42_response_compose.md rule R162, rule R165; log entry 4). -/
opaque Config.drawData (cycle : Nat) : Nat

/-- The don't-care draw of a response's value field (42_response_compose.md rule R162, rule R165; log entry 4). -/
opaque Config.drawValue (cycle : Nat) : Nat

/-- What `rxData` carries while `rxEmpty = 1` (20_memory.md rule R45; log entry 5). -/
opaque Config.drawRxData (cycle : Nat) : Word

/-- What the peripheral presents for an address that has no location (20_memory.md rule R40; log entry 6). -/
opaque Config.drawUnmapped (cycle : Nat) : Nat

end Sys2Proof
end

