-- ==== Sys2Proof/Syntax.lean ====
section
/-!
DEFINITION. The commands (spec/opcode_table.json) and the decoded fields of a word.
-/

namespace Sys2Proof

/-- The decoded fields of a word: the opcode raw, so that an unrecognized one can be echoed (30_encoding.md rule R63,
rule R68; 90_conflicts.md C7). -/
structure Decoded where
  opcode : Nat
  address : Nat
  data : Nat
  value : Nat
  deriving DecidableEq, Repr

/-- The class of an opcode value (30_encoding.md rule R68). -/
inductive CommandClass where
  | read
  | write
  | reset
  | step
  | start
  | pause
  | status
  | nop
  deriving DecidableEq, Repr

/-- One constructor per row of the opcode table. Every command carries its three operand fields, the ones it ignores
too: the address is echoed (30_encoding.md rule R67), and the address and data fields drive the peripheral lines in
every cycle (40_command_control.md rule R103). The implicit no-op carries its raw opcode, which is echoed
(40_command_control.md rule R113). -/
inductive Instr where
  | read (address data value : Nat)
  | write (address data value : Nat)
  | reset (address data value : Nat)
  | step (address data value : Nat)
  | start (address data value : Nat)
  | pause (address data value : Nat)
  | status (address data value : Nat)
  | nop (opcode address data value : Nat)
  deriving DecidableEq, Repr

end Sys2Proof
end

