-- ==== Sys2Proof/WellFormed.lean ====
section
/-!
DEFINITION. The well-formedness of a configuration (00_scope.md rule R8, rule R9, rule R11) and of a command under it.
-/

namespace Sys2Proof

/-- `W > hi >= lo >= 0` (00_scope.md rule R8). -/
def BitRange.fits (r : BitRange) (wordWidth : Nat) : Bool := r.lo ≤ r.hi && r.hi < wordWidth

/-- Two inclusive ranges share no bit. -/
def BitRange.disjoint (r q : BitRange) : Bool := r.hi < q.lo || q.hi < r.lo

/-- The four ranges fit in the word and are pairwise disjoint (00_scope.md rule R8); the opcode field has room for
seven values (rule R9). -/
def Layout.wf (l : Layout) : Bool :=
  l.opcode.fits l.wordWidth && l.address.fits l.wordWidth && l.data.fits l.wordWidth && l.value.fits l.wordWidth &&
    l.opcode.disjoint l.address && l.opcode.disjoint l.data && l.opcode.disjoint l.value &&
    l.address.disjoint l.data && l.address.disjoint l.value && l.data.disjoint l.value && 3 ≤ l.opcode.width

/-- The seven values in the order of 00_scope.md rule R9. -/
def Opcodes.toList (o : Opcodes) : List Nat := [o.read, o.write, o.reset, o.step, o.start, o.pause, o.status]

/-- Seven values in `[0, 2^W_OP)`, pairwise distinct (00_scope.md rule R9). -/
def Opcodes.wf (o : Opcodes) (opcodeWidth : Nat) : Bool :=
  o.toList.all (· < 2 ^ opcodeWidth) && o.toList.Nodup

/-- The configuration the rules hold for (00_scope.md rules R8, R9); the peripheral's address space has at most
`2^W_ADDR` locations (rule R11). -/
def Config.wf (cfg : Config) : Bool :=
  cfg.layout.wf && cfg.opcodes.wf cfg.layout.opcode.width && cfg.locations ≤ 2 ^ cfg.layout.address.width

/-- Operand fields within their widths (30_encoding.md rule R66). -/
def Layout.operandsFit (l : Layout) (address data value : Nat) : Bool :=
  address < 2 ^ l.address.width && data < 2 ^ l.data.width && value < 2 ^ l.value.width

/-- A command whose word holds all of it: every field within its width, and an implicit no-op's opcode a value of the
opcode field that none of the seven is (30_encoding.md rule R65 (1), rule R68). -/
def Instr.wf (cfg : Config) : Instr → Bool
  | .read a d v => cfg.layout.operandsFit a d v
  | .write a d v => cfg.layout.operandsFit a d v
  | .reset a d v => cfg.layout.operandsFit a d v
  | .step a d v => cfg.layout.operandsFit a d v
  | .start a d v => cfg.layout.operandsFit a d v
  | .pause a d v => cfg.layout.operandsFit a d v
  | .status a d v => cfg.layout.operandsFit a d v
  | .nop op a d v =>
    cfg.layout.operandsFit a d v && op < 2 ^ cfg.layout.opcode.width && !cfg.opcodes.toList.contains op

end Sys2Proof
end

