-- ==== Sys2Proof/Decode.lean ====
section
/-!
DEFINITION. The Field Codec (30_encoding.md rules R60 to R70): pure functions, the same in both stages (rule R62).
-/

namespace Sys2Proof

/-- `v[hi:lo]`: bits `hi` down to `lo`, both inclusive (00_scope.md rule R13). -/
def sliceBits (v : Nat) (r : BitRange) : Nat := trunc r.width (v >>> r.lo)

/-- A value cut to its slot's width and put in its place (30_encoding.md rule R64). -/
def placeBits (r : BitRange) (v : Nat) : Nat := trunc r.width v <<< r.lo

/-- `decode(w)` (30_encoding.md rule R63): total, no error cases. -/
def decodeFields (l : Layout) (w : Word) : Decoded :=
  { opcode := sliceBits w l.opcode
    address := sliceBits w l.address
    data := sliceBits w l.data
    value := sliceBits w l.value }

/-- `encode(op, a, d, v)` (30_encoding.md rule R64): a field wider than its slot is truncated; unused bits are 0. -/
def encodeFields (l : Layout) (d : Decoded) : Word :=
  placeBits l.opcode d.opcode ||| placeBits l.address d.address ||| placeBits l.data d.data |||
    placeBits l.value d.value

/-- `M`: a 1 exactly at the bits covered by a field (30_encoding.md rule R65 (3)): all-ones fields, placed. -/
def fieldMask (l : Layout) : Word :=
  encodeFields l ⟨2 ^ l.opcode.width - 1, 2 ^ l.address.width - 1, 2 ^ l.data.width - 1, 2 ^ l.value.width - 1⟩

/-- `cls(op)` (30_encoding.md rule R68): full-width equality on the opcode field, NOP otherwise. -/
def classOf (o : Opcodes) (op : Nat) : CommandClass :=
  if op = o.read then .read
  else if op = o.write then .write
  else if op = o.reset then .reset
  else if op = o.step then .step
  else if op = o.start then .start
  else if op = o.pause then .pause
  else if op = o.status then .status
  else .nop

/-- The command that decoded fields stand for (30_encoding.md rule R68, rule R70): no encoding is illegal. -/
def commandOf (o : Opcodes) (d : Decoded) : Instr :=
  match classOf o d.opcode with
  | .read => .read d.address d.data d.value
  | .write => .write d.address d.data d.value
  | .reset => .reset d.address d.data d.value
  | .step => .step d.address d.data d.value
  | .start => .start d.address d.data d.value
  | .pause => .pause d.address d.data d.value
  | .status => .status d.address d.data d.value
  | .nop => .nop d.opcode d.address d.data d.value

/-- The decoder the machine runs: every word is a command. -/
def decodeWord (cfg : Config) (w : Word) : Instr := commandOf cfg.opcodes (decodeFields cfg.layout w)

/-- Why bits from outside the machine are no word of it. -/
inductive NoWord where
  /-- The number needs more than the `W` bits of a word (30_encoding.md rule R60). -/
  | widerThanWord
  deriving DecidableEq, Repr

/-- The decoder on bits from outside: the one thing it refuses is a number that is no `W`-bit word, since "every bit
pattern decodes" (30_encoding.md rule R63). -/
def decodeBits (cfg : Config) (w : Nat) : Except NoWord Instr :=
  if w < 2 ^ cfg.layout.wordWidth then .ok (decodeWord cfg w) else .error .widerThanWord

/-- What the host asks of the opcode table: the command in a word of the reference configuration (log entry 1), whose
bits above the table's `nbits` are 0. -/
def decodeTableWord (_nbits w : Nat) : Option Instr :=
  match decodeBits Config.reference w with
  | .ok i => some i
  | .error _ => none

/-! ### The encoder -/

/-- The fields a command's word carries (30_encoding.md rule R67, rule R71). -/
def fieldsOf (o : Opcodes) : Instr → Decoded
  | .read a d v => ⟨o.read, a, d, v⟩
  | .write a d v => ⟨o.write, a, d, v⟩
  | .reset a d v => ⟨o.reset, a, d, v⟩
  | .step a d v => ⟨o.step, a, d, v⟩
  | .start a d v => ⟨o.start, a, d, v⟩
  | .pause a d v => ⟨o.pause, a, d, v⟩
  | .status a d v => ⟨o.status, a, d, v⟩
  | .nop op a d v => ⟨op, a, d, v⟩

/-- The word of a command (30_encoding.md rule R71: `encode(OPC_<mnemonic>, addr, data, n)`). -/
def encode (cfg : Config) (i : Instr) : Word := encodeFields cfg.layout (fieldsOf cfg.opcodes i)

end Sys2Proof
end

