-- ==== Sys2Proof/Machine/State.lean ====
section
/-!
DEFINITION. The state of the machine, as plain data, and the reasons a step can stop.

The core's stored state `s = (pipe, cc)` is `CoreState`, exactly the six fields of 10_state.md rule R23. `State` puts
beside it what the core's step takes as arguments (43_tick.md rule R180): the configuration, and the environment at
the core's boundary signals (10_state.md rule R28, rule R29): the two queues, the peripheral's register file, and the
choices the host side, the reset line and the peripheral make in the cycles to come.
-/

namespace Sys2Proof.Machine

/-! ### The core -/

/-- The pipeline register (10_state.md rule R20). -/
structure PipelineRegister where
  nop : Bool
  opcode : Nat
  address : Nat
  cycleCount : Nat
  deriving DecidableEq, Repr

/-- The clocking mode (10_state.md rule R22). -/
inductive Mode where
  | manual
  | autonomous
  deriving DecidableEq, Repr

/-- Cycle-control state `cc` (10_state.md rule R22). -/
structure CycleControl where
  mode : Mode
  remainingSteps : Nat
  deriving DecidableEq, Repr

/-- The core's stored state, exactly (10_state.md rule R23). -/
structure CoreState where
  pipe : PipelineRegister
  cc : CycleControl
  deriving DecidableEq, Repr

/-- `RESET_STATE` (10_state.md rule R31; 70_reset_and_hazards.md rule R221). -/
def CoreState.reset : CoreState :=
  { pipe := { nop := true, opcode := 0, address := 0, cycleCount := 0 }
    cc := { mode := .manual, remainingSteps := 0 } }

/-! ### The boundary signals -/

/-- The inputs of one cycle (10_state.md rule R28). -/
structure Inputs where
  rxData : Word
  rxEmpty : Bool
  txFull : Bool
  readData : Nat
  rst : Bool
  deriving DecidableEq, Repr

/-- The outputs of one cycle (10_state.md rule R29). -/
structure Outputs where
  rxDequeue : Bool
  pAddr : Nat
  pWriteData : Nat
  pWriteEnable : Bool
  pReset : Bool
  pClockEnable : Bool
  txEnqueue : Bool
  txData : Word
  deriving DecidableEq, Repr

/-- What a cycle showed at the boundary (43_tick.md rule R184), and whether it lost a response
(93_implementation_defined.md: "a model's observation records the loss as an event"). No rule reads it. -/
structure Observation where
  inputs : Inputs
  outputs : Outputs
  responseLost : Bool
  deriving DecidableEq, Repr

/-! ### The environment -/

/-- A location of the peripheral's register file and the item in it (20_memory.md rule R40). The smallest unit the
spec gives is the `W_DATA`-bit item, never a byte (rule R47, rule R49), so a cell is a pair of numbers and not a
`Host.Cell` (log entry 7). -/
abbrev Cell := Nat × Nat

/-- The peripheral's register file in its one canonical form: locations strictly rising, no item equal to what an
unlisted location holds (`Ops.lean`: `unlistedItem`, `memoryWf`). -/
abbrev Memory := List Cell

/-- The external reset line in one cycle. `midCycle` stands for a pulse shorter than a cycle, or a release in the
middle of one, which the cycle model refuses (43_tick.md rule R181). -/
inductive ResetLine where
  | low
  | high
  | midCycle
  deriving DecidableEq, Repr

/-- What the environment does of its own choice in one cycle and at the edge that ends it (43_tick.md rule R183). -/
structure Event where
  /-- The reset line during the cycle (10_state.md rule R28). -/
  rst : ResetLine
  /-- The words the host side appends to the receive queue, the first first (20_memory.md rule R45). -/
  rxPush : List Word
  /-- How many words the host side removes from the transmit queue (20_memory.md rule R46). -/
  txPop : Nat
  /-- `none`: the peripheral answers the address of this cycle by its read timing, and so meets P_RD (20_memory.md rule
  R44). `some v`: it does not, and presents `v` in the next cycle (93_implementation_defined.md: outside P_RD, any
  value). -/
  readData : Option Nat
  /-- Locations the experiment's clocked logic changes, if this edge is a clocked one (20_memory.md rule R43). -/
  clockedWrites : List Cell
  /-- Locations the peripheral changes by its own means, clocked or not (70_reset_and_hazards.md rule R220, R231). -/
  ownWrites : List Cell
  /-- Whether the core's access lands after the peripheral's own changes of the same edge, and so prevails; the spec
  leaves the order open (70_reset_and_hazards.md rule R230). -/
  accessLast : Bool
  deriving DecidableEq, Repr

/-- A cycle in which the environment chooses nothing: what stands for the cycles no event is listed for (log
entry 3). -/
def Event.quiet : Event :=
  { rst := .low, rxPush := [], txPop := 0, readData := none, clockedWrites := [], ownWrites := [], accessLast := true }

/-- The experiment peripheral at its interface (20_memory.md rules R41 to R44). -/
structure Peripheral where
  /-- The register file. -/
  locations : Memory
  /-- The `readData` line in the current cycle. -/
  readData : Nat
  /-- How many clocked edges the experiment has been given (20_memory.md rule R43, 41_cycle_control.md rule R132):
  the model's own count of what the experiment sees of its clock; no rule reads it. -/
  clockedEdges : Nat
  deriving DecidableEq, Repr

/-! ### The machine -/

/-- The machine: the configuration, the core, and the environment at its boundary. -/
structure State where
  cfg : Config
  core : CoreState
  /-- The receive queue, its head first (20_memory.md rule R45). -/
  rx : List Word
  /-- The transmit queue, its oldest word first (20_memory.md rule R46). -/
  tx : List Word
  peripheral : Peripheral
  /-- The environment's choices in the cycles to come, the current cycle's first (43_tick.md rule R183). -/
  events : List Event
  /-- The number of the current cycle (00_scope.md rule R14): the model's own; the free values are drawn with it. -/
  cycle : Nat
  /-- What the cycle just ended showed; `none` before the first (43_tick.md rule R184). -/
  last : Option Observation
  deriving DecidableEq, Repr

/-- The machine right after reset, in the reference configuration (log entry 1): the core in `RESET_STATE`, the queues
empty, the peripheral as the reference peripheral starts (20_memory.md rule R56; log entry 8). -/
def State.reset : State :=
  { cfg := Config.reference
    core := CoreState.reset
    rx := []
    tx := []
    peripheral := { locations := [], readData := 0, clockedEdges := 0 }
    events := []
    cycle := 0
    last := none }

/-- Nothing in the core faults (60_exceptions.md rule R200: "There is no exception/error-return model"; 93: "Nothing in
the core faults or gets stuck"), so there is no reason to fault and this type has no value. -/
inductive Fault where
  deriving DecidableEq, Repr

/-- Why the model gives a cycle no meaning: "Refusals apply only to configurations and to reset waveforms the cycle
model cannot express" (93_implementation_defined.md). -/
inductive Refusal where
  /-- An instruction no meaning has been written for, by its mnemonic; raised by no arm of `exec` now. Safe. -/
  | notModelled (mnemonic : String)
  /-- The configuration breaks 00_scope.md rule R8, R9 or R11, and the rules say nothing of it (43_tick.md rule R184);
  raised by every cycle of such a machine (`Ops.lean`: `runCycle`). Safe. -/
  | configurationNotWellFormed
  /-- The reset line changes inside the cycle (43_tick.md rule R181: "The model refuses it"); raised by a cycle whose
  event says so (`Ops.lean`: `runCycle`). Safe. -/
  | resetChangesMidCycle
  deriving DecidableEq, Repr

end Sys2Proof.Machine
end

