-- ==== Sys2Proof/Machine/Flags.lean ====
section
/-!
DEFINITION. The one-bit state elements and the signals computed from them alone (10_state.md rule R26): there are no
condition codes.
-/

namespace Sys2Proof.Machine

/-- `pipe.nop <- !accept` (40_command_control.md rule R106): unaccepted cycles carry no command. -/
def nopFlag (accept : Bool) : Bool := !accept

/-- `modeBit(MANUAL) = 0`, `modeBit(AUTONOMOUS) = 1` (42_response_compose.md rule R163). -/
def modeBit : Mode → Nat
  | .manual => 0
  | .autonomous => 1

/-- `pClockEnable`, a level, from the stored cycle-control state alone (41_cycle_control.md rule R130). -/
def clockEnable (cc : CycleControl) : Bool :=
  cc.mode == .autonomous || (cc.mode == .manual && cc.remainingSteps != 0)

end Sys2Proof.Machine
end

