-- ==== Sys2Proof/Machine/Operands.lean ====
section
/-!
DEFINITION. Operand assembly (30_encoding.md rule R66): the operands of a command are its fields, as zero-extended
unsigned numbers with no further transformation. No operand comes from anywhere else.
-/

namespace Sys2Proof.Machine

/-- The address operand, passed through unchanged to `pAddr` (30_encoding.md rule R66, 20_memory.md rule R51). -/
def addressOperand (d : Decoded) : Nat := d.address

/-- The write-data operand (30_encoding.md rule R66). -/
def dataOperand (d : Decoded) : Nat := d.data

/-- The step count a STEP loads: `trunc_W_VAL(stepValue)` (41_cycle_control.md rule R131), the identity on a value
field, which marks the width (rule R136). -/
def stepOperand (l : Layout) (d : Decoded) : Nat := trunc l.value.width d.value

end Sys2Proof.Machine
end

