-- ==== Sys2Proof/Machine/Ops.lean ====
section
/-!
DEFINITION. The named operations: the peripheral's register file, the boundary signals, Cycle Control, Response
Compose, the edge that ends a cycle, and `runCommand`, the one shared operation every command's meaning calls.

The core takes no exception (60_exceptions.md rules R200, R204); the external reset, the only thing that preempts a
command, is in `effectiveCore` and `edgeCore`.
-/

namespace Sys2Proof.Machine

/-! ### The peripheral's register file -/

/-- What a location that holds no listed item holds: the reference peripheral's content at the start and after its
reset (20_memory.md rule R56). DESIGN CHOICE (log entry 8): the spec leaves the initial content to the peripheral. -/
def unlistedItem : Nat := 0

/-- The item a location holds. -/
def readCell : Memory → Nat → Nat
  | [], _ => unlistedItem
  | (b, v) :: rest, a => if a = b then v else readCell rest a

/-- The canonical form: locations strictly rising, no listed item equal to the unlisted one. -/
def memoryWf : Memory → Bool
  | [] => true
  | [(_, v)] => v != unlistedItem
  | (a, v) :: (b, w) :: rest => v != unlistedItem && a < b && memoryWf ((b, w) :: rest)

/-- One item written to one location; writing the unlisted item removes the entry, so equal contents are equal data. -/
def writeCell : Memory → Nat → Nat → Memory
  | [], a, v => if v = unlistedItem then [] else [(a, v)]
  | (b, w) :: rest, a, v =>
    if a < b then (if v = unlistedItem then (b, w) :: rest else (a, v) :: (b, w) :: rest)
    else if a = b then (if v = unlistedItem then rest else (a, v) :: rest)
    else (b, w) :: writeCell rest a v

/-- An item written where the peripheral has a location, cut to the item's `W_DATA` bits; an address with no location
holds nothing (20_memory.md rule R40; log entry 6). -/
def storeItem (cfg : Config) (m : Memory) (a v : Nat) : Memory :=
  if a < cfg.locations then writeCell m a (trunc cfg.layout.data.width v) else m

/-- Items written one after the other. -/
def storeItems (cfg : Config) : Memory → List Cell → Memory
  | m, [] => m
  | m, (a, v) :: rest => storeItems cfg (storeItem cfg m a v) rest

/-- The locations of one reset region, each with the value the reset gives it (20_memory.md rule R42). -/
def regionCells (r : ResetRegion) : List Cell := (List.range r.size).map fun k => (r.base + k, r.value)

/-- All that the peripheral's reset sets (20_memory.md rule R42; 00_scope.md rule R11). -/
def resetCells (cfg : Config) : List Cell := cfg.resetRegions.flatMap regionCells

/-! ### The inputs of a cycle -/

/-- The environment's choices in the current cycle (43_tick.md rule R183; log entry 3). -/
def currentEvent (s : State) : Event := s.events.headD Event.quiet

/-- `in.rst`: the reset line, held for the whole cycle (43_tick.md rule R181). -/
def resetHigh (s : State) : Bool := (currentEvent s).rst == .high

/-- `in.rxEmpty` (20_memory.md rule R45). -/
def rxEmpty (s : State) : Bool := s.rx.isEmpty

/-- `in.rxData`: the head word, or an arbitrary word while the queue is empty (20_memory.md rule R45; log entry 5). -/
def rxData (s : State) : Word :=
  match s.rx with
  | [] => trunc s.cfg.layout.wordWidth (Config.drawRxData s.cycle)
  | w :: _ => w

/-- `in.txFull`: asserted when at most `TX_FULL_MARGIN` slots are free (20_memory.md rule R46; rule R227). -/
def txFull (s : State) : Bool := s.cfg.txDepth ≤ s.tx.length + s.cfg.txFullMargin

/-- The input tuple of the cycle (10_state.md rule R28). -/
def inputsOf (s : State) : Inputs :=
  { rxData := rxData s
    rxEmpty := rxEmpty s
    txFull := txFull s
    readData := s.peripheral.readData
    rst := resetHigh s }

/-- The stored state as the cycle reads it: the reset state throughout a cycle with `rst = 1` (43_tick.md rule R181;
70_reset_and_hazards.md rule R220). -/
def effectiveCore (s : State) : CoreState := if resetHigh s then CoreState.reset else s.core

/-! ### Command Control (EX stage) -/

/-- `exAllowed` (40_command_control.md rule R100; 70_reset_and_hazards.md rule R224). -/
def exAllowed (s : State) : Bool := !(s.cfg.exInReset == .gated && resetHigh s)

/-- `accept`: the receive queue is non-empty and the transmit queue is not full (40_command_control.md rule R100); it
depends on neither the opcode nor the stored state. -/
def accept (s : State) : Bool := exAllowed s && !rxEmpty s && !txFull s

/-- The one-cycle triggers toward Cycle Control (40_command_control.md rule R105). -/
inductive Trigger where
  | none
  | step
  | start
  | pause
  deriving DecidableEq, Repr

/-- What one command does in its EX cycle if it is accepted (40_command_control.md rules R102 to R105). -/
structure CommandEffect where
  writeEnable : Bool := false
  periphReset : Bool := false
  trigger : Trigger := .none
  deriving DecidableEq, Repr

/-- The trigger as Cycle Control sees it: 0 in every unaccepted cycle (40_command_control.md rule R102, rule R105). -/
def gatedTrigger (s : State) (e : CommandEffect) : Trigger := if accept s then e.trigger else .none

/-! ### Cycle Control (EX stage) -/

/-- The counting arm (41_cycle_control.md rule R131, rule R132): one fewer, never below 0, in MANUAL mode only. -/
def countDown (cc : CycleControl) : CycleControl :=
  if cc.mode = .manual ∧ cc.remainingSteps ≠ 0 then { mode := .manual, remainingSteps := cc.remainingSteps - 1 }
  else cc

/-- The STEP arm in MANUAL mode with the step count `n` (41_cycle_control.md rule R131): all policies load `n` when no
count is in progress. -/
def stepLoad (cfg : Config) (cc : CycleControl) (n : Nat) : CycleControl :=
  if cc.remainingSteps = 0 then { mode := .manual, remainingSteps := n }
  else
    match cfg.stepRearm with
    | .reload => { mode := .manual, remainingSteps := n }
    | .ignore => { mode := .manual, remainingSteps := cc.remainingSteps - 1 }
    | .extend =>
      { mode := .manual, remainingSteps := min (cc.remainingSteps - 1 + n) (2 ^ cfg.layout.value.width - 1) }

/-- `ccNext` (41_cycle_control.md rule R131): a trigger that applies replaces the counting arm, one that does not
leaves it in force (rule R133). -/
def ccNext (cfg : Config) (cc : CycleControl) (t : Trigger) (n : Nat) : CycleControl :=
  match t, cc.mode with
  | .start, _ => { mode := .autonomous, remainingSteps := 0 }
  | .pause, .autonomous => { mode := .manual, remainingSteps := 0 }
  | .step, .manual => stepLoad cfg cc n
  | .pause, .manual => countDown cc
  | .step, .autonomous => countDown cc
  | .none, _ => countDown cc

/-- `ccNext` of the cycle in which the command with fields `d` and effect `e` is at the head. -/
def nextCc (s : State) (d : Decoded) (e : CommandEffect) : CycleControl :=
  ccNext s.cfg (effectiveCore s).cc (gatedTrigger s e) (stepOperand s.cfg.layout d)

/-- The pipeline register's next value (40_command_control.md rule R106): the payload is loaded in every cycle,
accepted or not; the snapshot is the count after the edge (41_cycle_control.md rule R135). -/
def nextPipe (s : State) (d : Decoded) (e : CommandEffect) : PipelineRegister :=
  { nop := nopFlag (accept s)
    opcode := d.opcode
    address := addressOperand d
    cycleCount := (nextCc s d e).remainingSteps }

/-! ### Response Compose (RESPOND stage) -/

/-- The address field of a response (42_response_compose.md rule R162). -/
def responseAddress (c : CommandClass) (p : PipelineRegister) (cycle : Nat) : Nat :=
  match c with
  | .nop => Config.drawAddress cycle
  | .read | .write | .reset | .step | .start | .pause | .status => p.address

/-- The data field of a response (42_response_compose.md rule R162, rule R163, rule R164). -/
def responseData (c : CommandClass) (cc : CycleControl) (readData cycle : Nat) : Nat :=
  match c with
  | .read => readData
  | .status => modeBit cc.mode
  | .write | .reset | .step | .start | .pause | .nop => Config.drawData cycle

/-- The value field of a response (42_response_compose.md rule R162). -/
def responseValue (c : CommandClass) (p : PipelineRegister) (cycle : Nat) : Nat :=
  match c with
  | .step | .status => p.cycleCount
  | .read | .write | .reset | .start | .pause | .nop => Config.drawValue cycle

/-- The response word (42_response_compose.md rule R161): composed in every cycle, valid only when enqueued (rule
R166). -/
def responseWord (s : State) : Word :=
  let r := effectiveCore s
  let c := classOf s.cfg.opcodes r.pipe.opcode
  encodeFields s.cfg.layout
    { opcode := r.pipe.opcode
      address := responseAddress c r.pipe s.cycle
      data := responseData c r.cc s.peripheral.readData s.cycle
      value := responseValue c r.pipe s.cycle }

/-- `txEnqueue` (42_response_compose.md rule R160): the full flag is checked again. -/
def txEnqueue (s : State) : Bool := !(effectiveCore s).pipe.nop && !txFull s

/-- A lost response: the pipeline register holds a command and no enqueue happens (00_scope.md rule R19;
70_reset_and_hazards.md rule R226). -/
def losesResponse (s : State) : Bool := !(effectiveCore s).pipe.nop && txFull s

/-- The outputs of the cycle (43_tick.md rule R182). -/
def outputsOf (s : State) (d : Decoded) (e : CommandEffect) : Outputs :=
  { rxDequeue := accept s
    pAddr := addressOperand d
    pWriteData := dataOperand d
    pWriteEnable := accept s && e.writeEnable
    pReset := accept s && e.periphReset
    pClockEnable := clockEnable (effectiveCore s).cc
    txEnqueue := txEnqueue s
    txData := responseWord s }

/-! ### The edge that ends the cycle (43_tick.md rule R183) -/

/-- The receive queue after the edge: the head removed on `rxDequeue`, then the host side's words appended as far as
there are free slots (20_memory.md rule R45; log entry 9). -/
def edgeRx (cfg : Config) (ev : Event) (o : Outputs) (rx : List Word) : List Word :=
  let kept := if o.rxDequeue then rx.tail else rx
  kept ++ (ev.rxPush.map (trunc cfg.layout.wordWidth)).take (cfg.rxDepth - kept.length)

/-- The transmit queue after the edge: removal and append are both applied (20_memory.md rule R46). -/
def edgeTx (ev : Event) (o : Outputs) (tx : List Word) : List Word :=
  tx.drop ev.txPop ++ (if o.txEnqueue then [o.txData] else [])

/-- The core's access at the edge: the write, then the reset, which discards a write of the same cycle where it sets
the location (20_memory.md rules R41, R42; the core never strobes both). -/
def edgeAccess (cfg : Config) (o : Outputs) (m : Memory) : Memory :=
  let written := if o.pWriteEnable then storeItem cfg m o.pAddr o.pWriteData else m
  if o.pReset then storeItems cfg written (resetCells cfg) else written

/-- The locations the peripheral changes itself at the edge: its clocked logic only at a clocked edge (20_memory.md
rule R43). -/
def ownChanges (ev : Event) (clocked : Bool) : List Cell := ev.ownWrites ++ (if clocked then ev.clockedWrites else [])

/-- The register file after the edge; the order of the core's access and the peripheral's own changes is the
environment's (70_reset_and_hazards.md rule R230). -/
def edgeLocations (cfg : Config) (ev : Event) (o : Outputs) (m : Memory) : Memory :=
  if ev.accessLast then edgeAccess cfg o (storeItems cfg m (ownChanges ev o.pClockEnable))
  else storeItems cfg (edgeAccess cfg o m) (ownChanges ev o.pClockEnable)

/-- The register file as the peripheral's read looks at it at the edge, by the configured timing: what the edge leaves,
or the same without the core's access of this edge (20_memory.md rule R56: "read before this edge's write"). The
peripheral's own changes are in both, so that a READ gets the content after its edge (rule R44, rule R230). -/
def latchedLocations (cfg : Config) (ev : Event) (o : Outputs) (m : Memory) : Memory :=
  match cfg.readTiming with
  | .beforeAccess => storeItems cfg m (ownChanges ev o.pClockEnable)
  | .afterEdge => edgeLocations cfg ev o m

/-- `readData` of the next cycle: the item of the location addressed in the cycle, in the register file as the read
looks at it; any value where P_RD fails (20_memory.md rule R44) or where the address has no location (log entries 2
and 6). -/
def edgeReadData (cfg : Config) (ev : Event) (o : Outputs) (latched : Memory) (cycle : Nat) : Nat :=
  match ev.readData with
  | some v => trunc cfg.layout.data.width v
  | none =>
    if o.pAddr < cfg.locations then readCell latched o.pAddr
    else trunc cfg.layout.data.width (Config.drawUnmapped cycle)

/-- The peripheral after the edge. -/
def edgePeripheral (cfg : Config) (ev : Event) (o : Outputs) (cycle : Nat) (p : Peripheral) : Peripheral :=
  { locations := edgeLocations cfg ev o p.locations
    readData := edgeReadData cfg ev o (latchedLocations cfg ev o p.locations) cycle
    clockedEdges := if o.pClockEnable then p.clockedEdges + 1 else p.clockedEdges }

/-- The core after the edge: the reset overrides everything (43_tick.md rule R181; 60_exceptions.md rule R203). -/
def edgeCore (s : State) (d : Decoded) (e : CommandEffect) : CoreState :=
  if resetHigh s then CoreState.reset else { pipe := nextPipe s d e, cc := nextCc s d e }

/-- The machine after the edge that ends a cycle with the command of fields `d` and effect `e` at the head: the core's
commit and the environment's changes happen at once, every one of them a function of the state before the edge
(43_tick.md rules R180, R183). -/
def clockEdge (s : State) (d : Decoded) (e : CommandEffect) : State :=
  let ev := currentEvent s
  let o := outputsOf s d e
  { cfg := s.cfg
    core := edgeCore s d e
    rx := edgeRx s.cfg ev o s.rx
    tx := edgeTx ev o s.tx
    peripheral := edgePeripheral s.cfg ev o s.cycle s.peripheral
    events := s.events.tail
    cycle := s.cycle + 1
    last := some { inputs := inputsOf s, outputs := o, responseLost := losesResponse s } }

/-- One clock cycle with the command of fields `d` and effect `e` at the head of the receive queue. It is total on
every state (60_exceptions.md rule R200) but for the two cases the spec refuses (93_implementation_defined.md). -/
def runCommand (d : Decoded) (e : CommandEffect) (s : State) : Host.Outcome State Fault Refusal :=
  if s.cfg.wf then
    match (currentEvent s).rst with
    | .midCycle => .refused .resetChangesMidCycle
    | .low | .high => .next (clockEdge s d e)
  else .refused .configurationNotWellFormed

/-- A cycle with the receive queue empty: the lines carry the decoding of an arbitrary word and no command is accepted
(40_command_control.md rules R103, R107; 20_memory.md rule R45). -/
def idleCycle (s : State) : Host.Outcome State Fault Refusal :=
  runCommand (decodeFields s.cfg.layout (rxData s)) {} s

/-- The word at the head of the receive queue, from which the next command is always taken (10_state.md rule R25). -/
def fetchWord (s : State) : Option Word := s.rx.head?

end Sys2Proof.Machine
end

