-- ==== Sys2Proof/Machine/CycleCommands.lean ====
section
/-!
DEFINITION. The cycle commands (41_cycle_control.md rules R140 to R143): STEP, START, PAUSE and STATUS. Each meaning is
the EX cycle of the command; its answer is composed in the next cycle from the pipeline register and the cycle-control
state (`responseWord`).
-/

namespace Sys2Proof.Machine

/-- STEP (41_cycle_control.md rule R140): the step trigger, with the value field as the step count. -/
def execStep (address data value : Nat) (s : State) : Host.Outcome State Fault Refusal :=
  runCommand ⟨s.cfg.opcodes.step, address, data, value⟩ { trigger := .step } s

/-- START (41_cycle_control.md rule R141): the start trigger. -/
def execStart (address data value : Nat) (s : State) : Host.Outcome State Fault Refusal :=
  runCommand ⟨s.cfg.opcodes.start, address, data, value⟩ { trigger := .start } s

/-- PAUSE (41_cycle_control.md rule R142): the pause trigger. -/
def execPause (address data value : Nat) (s : State) : Host.Outcome State Fault Refusal :=
  runCommand ⟨s.cfg.opcodes.pause, address, data, value⟩ { trigger := .pause } s

/-- STATUS (41_cycle_control.md rule R143): no strobe and no trigger; the state is reported in the answer. -/
def execStatus (address data value : Nat) (s : State) : Host.Outcome State Fault Refusal :=
  runCommand ⟨s.cfg.opcodes.status, address, data, value⟩ {} s

end Sys2Proof.Machine
end

