-- ==== Sys2Proof/Machine/PeripheralCommands.lean ====
section
/-!
DEFINITION. The peripheral commands (40_command_control.md rules R110 to R113): READ, WRITE, RESET and the implicit
no-op. Each meaning is the EX cycle of the command; its answer is composed in the next cycle from the pipeline register
(`responseWord`). None of them triggers Cycle Control, which only counts.
-/

namespace Sys2Proof.Machine

/-- READ (40_command_control.md rule R110): drives the address; no strobe, no trigger. -/
def execRead (address data value : Nat) (s : State) : Host.Outcome State Fault Refusal :=
  runCommand ⟨s.cfg.opcodes.read, address, data, value⟩ {} s

/-- WRITE (40_command_control.md rule R111): `pWriteEnable` for this one cycle. -/
def execWrite (address data value : Nat) (s : State) : Host.Outcome State Fault Refusal :=
  runCommand ⟨s.cfg.opcodes.write, address, data, value⟩ { writeEnable := true } s

/-- RESET (40_command_control.md rule R112): `pReset` for this one cycle; the core is not reset (90_conflicts.md
C2). -/
def execReset (address data value : Nat) (s : State) : Host.Outcome State Fault Refusal :=
  runCommand ⟨s.cfg.opcodes.reset, address, data, value⟩ { periphReset := true } s

/-- The implicit no-op (40_command_control.md rule R113): accepted and answered like any command, with no strobe and no
trigger; its raw opcode is what the pipeline carries. -/
def execNop (opcode address data value : Nat) (s : State) : Host.Outcome State Fault Refusal :=
  runCommand ⟨opcode, address, data, value⟩ {} s

end Sys2Proof.Machine
end

