-- ==== Sys2Proof/Machine/Dispatch.lean ====
section
/-! DEFINITION. One arm per command (30_encoding.md rule R69): the cycle in which that command is at the head. -/

namespace Sys2Proof.Machine

def exec (i : Instr) (s : State) : Host.Outcome State Fault Refusal :=
  match i with
  | .read address data value => Sys2Proof.Machine.execRead address data value s
  | .write address data value => Sys2Proof.Machine.execWrite address data value s
  | .reset address data value => Sys2Proof.Machine.execReset address data value s
  | .step address data value => Sys2Proof.Machine.execStep address data value s
  | .start address data value => Sys2Proof.Machine.execStart address data value s
  | .pause address data value => Sys2Proof.Machine.execPause address data value s
  | .status address data value => Sys2Proof.Machine.execStatus address data value s
  | .nop opcode address data value => Sys2Proof.Machine.execNop opcode address data value s

end Sys2Proof.Machine
end

