-- ==== Sys2Proof/Machine/Step.lean ====
section
/-!
DEFINITION. One clock cycle of the machine (43_tick.md rule R180): every edge is one step, for ever (rule R184).
-/

namespace Sys2Proof.Machine

/-- The step: the command at the head of the receive queue runs, accepted or not; with the queue empty the cycle
passes without one (40_command_control.md rules R100, R107, R108). -/
def step (s : State) : Host.Outcome State Fault Refusal :=
  match fetchWord s with
  | some w => exec (decodeWord s.cfg w) s
  | none => idleCycle s

/-- `s` with the word `w` put at the head of the receive queue by the host side, and the two inputs that could keep it
waiting taken away: the reset line is low, and a full transmit queue has been drained. From `State.reset` it only
enqueues the word (log entry 10). The bits of `w` above the table's `nbits` are 0, so the number is the word. -/
def State.withFetchWord (s : State) (_nbits w : Nat) : State :=
  { s with
    rx := trunc s.cfg.layout.wordWidth w :: s.rx.tail
    tx := if txFull s then [] else s.tx
    events :=
      match s.events with
      | [] => []
      | ev :: rest => { ev with rst := .low } :: rest }

end Sys2Proof.Machine
end

