-- ==== Sys2Proof/Machine/Tick.lean ====
section
/-!
DEFINITION. The core's step of one cycle as 43_tick.md rule R180 writes it, line by line: `tick(cfg, s, in, dc) ->
(out, s')`, with the STEP arm under the open policy of 41_cycle_control.md rule R131. The machine does not run it: it
is the second reading of the spec that the commands' meanings are held to (`Certificates/Slice0/Obligations.lean`).
-/

namespace Sys2Proof.Machine

/-- `dc`: the draw for the don't-care response fields (42_response_compose.md rule R165). -/
structure Draw where
  addr : Nat
  data : Nat
  val : Nat
  deriving DecidableEq, Repr

/-- The count a STEP that applies leaves (41_cycle_control.md rule R131, `STEP_REARM`), `n` the step value. -/
def tickRearm (cfg : Config) (count n : Nat) : Nat :=
  if count = 0 ∨ cfg.stepRearm = .reload then n
  else if cfg.stepRearm = .ignore then count - 1
  else min (count - 1 + n) (2 ^ cfg.layout.value.width - 1)

/-- The step of one clock cycle (43_tick.md rule R180). -/
def tick (cfg : Config) (s : CoreState) (inp : Inputs) (dc : Draw) : Outputs × CoreState :=
  let r := if inp.rst then CoreState.reset else s
  let dec := decodeFields cfg.layout inp.rxData
  let c := classOf cfg.opcodes dec.opcode
  let exAllowed := !(cfg.exInReset == .gated && inp.rst)
  let accept := exAllowed && !inp.rxEmpty && !inp.txFull
  let trigStep := accept && c == .step
  let trigStart := accept && c == .start
  let trigPause := accept && c == .pause
  let ccNext : CycleControl :=
    if trigStart then ⟨.autonomous, 0⟩
    else if trigPause && r.cc.mode == .autonomous then ⟨.manual, 0⟩
    else if trigStep && r.cc.mode == .manual then ⟨.manual, tickRearm cfg r.cc.remainingSteps dec.value⟩
    else if r.cc.mode == .manual && r.cc.remainingSteps != 0 then ⟨.manual, r.cc.remainingSteps - 1⟩
    else r.cc
  let k := classOf cfg.opcodes r.pipe.opcode
  let rAddr := if k == .nop then dc.addr else r.pipe.address
  let rData := if k == .read then inp.readData else if k == .status then modeBit r.cc.mode else dc.data
  let rVal := if k == .step || k == .status then r.pipe.cycleCount else dc.val
  let out : Outputs :=
    { rxDequeue := accept
      pAddr := dec.address
      pWriteData := dec.data
      pWriteEnable := accept && c == .write
      pReset := accept && c == .reset
      pClockEnable := r.cc.mode == .autonomous || r.cc.remainingSteps != 0
      txEnqueue := !r.pipe.nop && !inp.txFull
      txData := encodeFields cfg.layout ⟨r.pipe.opcode, rAddr, rData, rVal⟩ }
  let pipeNext : PipelineRegister :=
    { nop := !accept, opcode := dec.opcode, address := dec.address, cycleCount := ccNext.remainingSteps }
  (out, if inp.rst then CoreState.reset else ⟨pipeNext, ccNext⟩)

end Sys2Proof.Machine
end

