-- ==== Sys2Proof/Safety.lean ====
section
/-!
DEFINITION. What counts as a good state, cycle and run, in the terms the statements use: the invariant of the machine,
the premises the spec names (43_tick.md rule R184), and runs of several cycles.
-/

namespace Sys2Proof.Machine

/-! ### Words -/

/-- Bit `i` of a word belongs to one of the four fields (30_encoding.md rule R61). -/
def Covered (l : Layout) (i : Nat) : Prop :=
  ∃ r ∈ [l.opcode, l.address, l.data, l.value], r.lo ≤ i ∧ i ≤ r.hi

/-! ### Cycles -/

/-- A cycle the spec gives a meaning: the configuration is well-formed and the reset line is held for the whole cycle
(93_implementation_defined.md). -/
abbrev WholeCycle (s : State) : Prop := s.cfg.wf = true ∧ (currentEvent s).rst ≠ .midCycle

/-- A cycle with a meaning and the reset line low. -/
abbrev RunsFree (s : State) : Prop := s.cfg.wf = true ∧ (currentEvent s).rst = .low

/-- A cycle with the reset line low in which the command at the head is accepted: the receive queue non-empty, the
transmit queue not full (40_command_control.md rule R100). -/
abbrev TakesCommand (s : State) : Prop := RunsFree s ∧ s.rx ≠ [] ∧ txFull s = false

/-- The draw of the cycle (42_response_compose.md rule R165). -/
def drawOf (s : State) : Draw :=
  ⟨Config.drawAddress s.cycle, Config.drawData s.cycle, Config.drawValue s.cycle⟩

/-- P_TX in one cycle: if the pipeline register holds a command, the transmit queue is not full
(70_reset_and_hazards.md rule R227). -/
abbrev PTX (s : State) : Prop := s.core.pipe.nop = false → txFull s = false

/-- P_RD in one cycle, for the address the cycle drives: the peripheral answers at the edge with the addressed
location's content, by its read timing; for a READ that is the content after the edge (20_memory.md rule R44). -/
abbrev PRD (s : State) : Prop := (currentEvent s).readData = none

/-- The peripheral's own changes of the cycle do not touch location `a` (70_reset_and_hazards.md rule R230). -/
abbrev LeavesAlone (s : State) (a : Nat) : Prop :=
  ∀ c ∈ (currentEvent s).ownWrites ++ (currentEvent s).clockedWrites, c.1 ≠ a

/-- The command `i` raises trigger `t` when accepted (40_command_control.md rule R105). -/
def commandTrigger : Instr → Trigger
  | .step _ _ _ => .step
  | .start _ _ _ => .start
  | .pause _ _ _ => .pause
  | .read _ _ _ | .write _ _ _ | .reset _ _ _ | .status _ _ _ | .nop _ _ _ _ => .none

/-- The next cycle, if the reset line is low in it, answers the command in the pipeline register: whatever command it
has at its own head, it enqueues a word that meets `P` (given the cycle's `readData`) unless the transmit queue is full
(42_response_compose.md rule R160, rule R161). -/
def AnswersNext (t : State) (P : (readData : Nat) → Word → Prop) : Prop :=
  RunsFree t → ∃ u ob, step t = .next u ∧ u.last = some ob ∧ ob.outputs.txEnqueue = !ob.inputs.txFull ∧
    P ob.inputs.readData ob.outputs.txData ∧
    u.tx = t.tx.drop (currentEvent t).txPop ++ (if ob.inputs.txFull then [] else [ob.outputs.txData])

/-- The commands `i` and `j` do the same in a cycle but for what the write-data line carries, which no strobe takes up
(30_encoding.md rule R67: a field that is ignored "drives no state change and no strobe"). -/
def AgreeButForWriteData (i j : Instr) (s : State) : Prop :=
  ∃ t u, exec i s = .next t ∧ exec j s = .next u ∧ t.core = u.core ∧ t.rx = u.rx ∧ t.tx = u.tx ∧
    t.peripheral = u.peripheral ∧ t.cfg = u.cfg ∧
    t.last.map (fun ob => { ob with outputs := { ob.outputs with pWriteData := 0 } }) =
      u.last.map (fun ob => { ob with outputs := { ob.outputs with pWriteData := 0 } })

/-- Free slots of the transmit queue, `f(t)` (70_reset_and_hazards.md rule R226). -/
def freeSlots (s : State) : Nat := s.cfg.txDepth - s.tx.length

/-- How many words the host side removes from the transmit queue at the edge (20_memory.md rule R46). -/
def removedWords (s : State) : Nat := min (currentEvent s).txPop s.tx.length

/-! ### The invariant -/

/-- Every listed cell is a location the peripheral has, with an item of `W_DATA` bits. -/
def cellsInRange (cfg : Config) (m : Memory) : Bool :=
  m.all fun c => c.1 < cfg.locations && c.2 < 2 ^ cfg.layout.data.width

/-- Every word is a `W`-bit word. -/
def wordsInRange (cfg : Config) (ws : List Word) : Bool := ws.all (· < 2 ^ cfg.layout.wordWidth)

/-- The invariant of the machine: a well-formed configuration; every register and signal within its width
(00_scope.md rule R10); no count in progress while AUTONOMOUS (41_cycle_control.md rule R134 (1)); the snapshot equal
to the count (rule R135); the register file in canonical form; the queues within their depths. -/
structure Invariant (s : State) : Prop where
  cfg_wf : s.cfg.wf = true
  opcode_lt : s.core.pipe.opcode < 2 ^ s.cfg.layout.opcode.width
  address_lt : s.core.pipe.address < 2 ^ s.cfg.layout.address.width
  count_lt : s.core.cc.remainingSteps < 2 ^ s.cfg.layout.value.width
  autonomous_idle : s.core.cc.mode = .autonomous → s.core.cc.remainingSteps = 0
  snapshot_eq : s.core.pipe.cycleCount = s.core.cc.remainingSteps
  memory_wf : memoryWf s.peripheral.locations = true
  cells_lt : cellsInRange s.cfg s.peripheral.locations = true
  readData_lt : s.peripheral.readData < 2 ^ s.cfg.layout.data.width
  rx_lt : wordsInRange s.cfg s.rx = true
  rx_depth : s.rx.length ≤ s.cfg.rxDepth
  tx_lt : wordsInRange s.cfg s.tx = true
  tx_depth : s.tx.length ≤ s.cfg.txDepth

/-! ### Runs -/

/-- `n` steps lead from `s` to `t`, each from a state that meets `C`. -/
def RunsTo (C : State → Prop) : Nat → State → State → Prop
  | 0, s, t => s = t
  | n + 1, s, t => ∃ u, C s ∧ step s = .next u ∧ RunsTo C n u t

/-- Steps lead from `s` to `t`, each from a state that meets `C`, and show the observations listed, the first first
(43_tick.md rule R184). -/
def Shows (C : State → Prop) : List Observation → State → State → Prop
  | [], s, t => s = t
  | ob :: obs, s, t => ∃ u, C s ∧ step s = .next u ∧ u.last = some ob ∧ Shows C obs u t

/-- The opcodes of the commands accepted in the cycles listed, in order. -/
def acceptedOpcodes (l : Layout) (obs : List Observation) : List Nat :=
  (obs.filter (·.outputs.rxDequeue)).map fun ob => sliceBits ob.inputs.rxData l.opcode

/-- The opcodes of the responses enqueued in the cycles listed, in order. -/
def answeredOpcodes (l : Layout) (obs : List Observation) : List Nat :=
  (obs.filter (·.outputs.txEnqueue)).map fun ob => sliceBits ob.outputs.txData l.opcode

/-- The opcode of the command still to be answered, if the pipeline register holds one. -/
def pendingOpcodes (s : State) : List Nat := if s.core.pipe.nop then [] else [s.core.pipe.opcode]

/-- No command that would raise one of the triggers `ts` is at the head of the receive queue and accepted. -/
def NoTrigger (ts : List Trigger) (s : State) : Prop :=
  ∀ w, fetchWord s = some w → accept s = true → commandTrigger (decodeWord s.cfg w) ∉ ts

/-- A cycle without reset in which no STEP, START or PAUSE is accepted. -/
abbrev Undisturbed (s : State) : Prop := RunsFree s ∧ NoTrigger [.step, .start, .pause] s

/-- A cycle without reset in which no PAUSE is accepted; every other command may be. -/
abbrev Unpaused (s : State) : Prop := RunsFree s ∧ NoTrigger [.pause] s

end Sys2Proof.Machine
end

