-- ==== Sys2Proof/Certificates/Slice0/Obligations.lean ====
section
/-!
DEFINITION. The statements for the provers. Each docstring names the rules it formalises. `cfg.wf` and `WholeCycle` are
the conditions under which the rules hold at all (43_tick.md rule R184); no statement rests on a free value.
-/

section
open Sys2Proof Sys2Proof.Machine

/-! ### The codec (30_encoding.md) -/

/-- Rule R63: bit `i` of each decoded field is bit `lo + i` of the word, within the field's width; every bit pattern
decodes, and nothing is sign-extended, scaled or shifted. -/
def Obligations.DecodedFieldsAreBitSlices : Prop :=
  ∀ (l : Layout) (w : Word) (i : Nat),
    (decodeFields l w).opcode.testBit i = (decide (i < l.opcode.width) && w.testBit (l.opcode.lo + i)) ∧
    (decodeFields l w).address.testBit i = (decide (i < l.address.width) && w.testBit (l.address.lo + i)) ∧
    (decodeFields l w).data.testBit i = (decide (i < l.data.width) && w.testBit (l.data.lo + i)) ∧
    (decodeFields l w).value.testBit i = (decide (i < l.value.width) && w.testBit (l.value.lo + i))

/-- Rule R64: each value is cut to its slot's width and put at its slot, and since the ranges are disjoint no bit is
shared: the word is the plain sum of the four, and a `W`-bit word. -/
def Obligations.EncodedWordIsTheSumOfItsSlots : Prop :=
  ∀ (l : Layout) (d : Decoded), l.wf = true →
    encodeFields l d =
      d.opcode % 2 ^ l.opcode.width * 2 ^ l.opcode.lo + d.address % 2 ^ l.address.width * 2 ^ l.address.lo +
        d.data % 2 ^ l.data.width * 2 ^ l.data.lo + d.value % 2 ^ l.value.width * 2 ^ l.value.lo ∧
    encodeFields l d < 2 ^ l.wordWidth

/-- Rule R65, its three laws: round trip within the widths, truncation of wider values, and the mask of the covered
bits, which is all of a `W`-bit word when the fields cover all of it. -/
def Obligations.CodecRoundTripsAndTruncates : Prop :=
  ∀ l : Layout, l.wf = true →
    (∀ d : Decoded, d.opcode < 2 ^ l.opcode.width → d.address < 2 ^ l.address.width → d.data < 2 ^ l.data.width →
      d.value < 2 ^ l.value.width → decodeFields l (encodeFields l d) = d) ∧
    (∀ d : Decoded, decodeFields l (encodeFields l d) =
      ⟨trunc l.opcode.width d.opcode, trunc l.address.width d.address, trunc l.data.width d.data,
        trunc l.value.width d.value⟩) ∧
    (∀ i : Nat, (fieldMask l).testBit i = true ↔ Covered l i) ∧
    (∀ w : Word, encodeFields l (decodeFields l w) = w &&& fieldMask l) ∧
    (∀ w : Word, w < 2 ^ l.wordWidth → (∀ i < l.wordWidth, Covered l i) → encodeFields l (decodeFields l w) = w)

/-- Rules R65 (1), R68, R71: the word of a well-formed command decodes to that command, under every well-formed
configuration and with every operand at every value its field admits. -/
def Obligations.CommandWordRoundTrips : Prop :=
  ∀ (cfg : Config) (i : Instr), cfg.wf = true → i.wf cfg = true →
    decodeWord cfg (encode cfg i) = i ∧ decodeBits cfg (encode cfg i) = .ok i

/-- Rules R63, R70: every word is a well-formed command, and its command's word is the word with the unused bits 0;
the one thing refused is a number that is no `W`-bit word. -/
def Obligations.EveryWordIsACommand : Prop :=
  ∀ (cfg : Config) (w : Nat), cfg.wf = true →
    (decodeWord cfg w).wf cfg = true ∧ encode cfg (decodeWord cfg w) = w &&& fieldMask cfg.layout ∧
    decodeBits cfg w =
      if w < 2 ^ cfg.layout.wordWidth then .ok (decodeWord cfg w) else .error .widerThanWord

/-- Rule R61, the spec's own choice D22 (log entry 19): a bit of no field is ignored by decode and written 0 by
encode. -/
def Obligations.UnusedBitsIgnoredAndWrittenZero : Prop :=
  ∀ l : Layout, l.wf = true →
    (∀ w w' : Word, (∀ i, Covered l i → w.testBit i = w'.testBit i) → decodeFields l w = decodeFields l w') ∧
    (∀ (d : Decoded) (i : Nat), ¬Covered l i → (encodeFields l d).testBit i = false)

/-- Rule R68: each class is its configured value, NOP is every other, only the opcode field decides, and the pipeline
carries the raw value. -/
def Obligations.OpcodeFieldAloneClassifies : Prop :=
  ∀ cfg : Config, cfg.wf = true →
    (∀ op : Nat,
      (classOf cfg.opcodes op = .read ↔ op = cfg.opcodes.read) ∧
      (classOf cfg.opcodes op = .write ↔ op = cfg.opcodes.write) ∧
      (classOf cfg.opcodes op = .reset ↔ op = cfg.opcodes.reset) ∧
      (classOf cfg.opcodes op = .step ↔ op = cfg.opcodes.step) ∧
      (classOf cfg.opcodes op = .start ↔ op = cfg.opcodes.start) ∧
      (classOf cfg.opcodes op = .pause ↔ op = cfg.opcodes.pause) ∧
      (classOf cfg.opcodes op = .status ↔ op = cfg.opcodes.status) ∧
      (classOf cfg.opcodes op = .nop ↔ op ∉ cfg.opcodes.toList)) ∧
    (∀ w w' : Word, sliceBits w cfg.layout.opcode = sliceBits w' cfg.layout.opcode →
      classOf cfg.opcodes (decodeFields cfg.layout w).opcode =
        classOf cfg.opcodes (decodeFields cfg.layout w').opcode) ∧
    (∀ s : State, s.cfg = cfg → RunsFree s →
      ∃ t, step s = .next t ∧ t.core.pipe.opcode = sliceBits (rxData s) cfg.layout.opcode)

/-- Rules R12, R63, R68 on words of 95_test_vectors.md (2.1, 2.3, P5), one for each command: the reference
configuration is the spec's own choice for its vectors (D2, D3; log entry 1). -/
def Obligations.ReferenceWordsDecode : Prop :=
  decodeTableWord 32 0x1052A003 = some (.read 5 0x2A 3) ∧
  decodeTableWord 32 0x2052A003 = some (.write 5 0x2A 3) ∧
  decodeTableWord 32 0x3052A003 = some (.reset 5 0x2A 3) ∧
  decodeTableWord 32 0x4052A003 = some (.step 5 0x2A 3) ∧
  decodeTableWord 32 0x5052A003 = some (.start 5 0x2A 3) ∧
  decodeTableWord 32 0x6052A003 = some (.pause 5 0x2A 3) ∧
  decodeTableWord 32 0x7052A003 = some (.status 5 0x2A 3) ∧
  decodeTableWord 32 0xF1234567 = some (.nop 15 0x12 0x34 0x567) ∧
  decodeTableWord 32 0 = some (.nop 0 0 0 0)

/-! ### The step (43_tick.md) -/

/-- Rules R25, R102, R103: the step is the command decoded from the head word, in full; while the queue is empty it is
that of the arbitrary word on `rxData`, whichever that is. -/
def Obligations.StepRunsTheDecodedCommand : Prop :=
  ∀ s : State,
    (∀ w rest, s.rx = w :: rest → step s = exec (decodeWord s.cfg w) s) ∧
    (s.rx = [] → step s = exec (decodeWord s.cfg (rxData s)) s)

/-- Rules R180 and R131 (with the spec's choices D6, D7, D10 to D14; log entries 12 to 15): in every cycle with a
meaning, the machine's outputs and the core's next state are those of the step function of the spec, written out
independently of the commands' meanings. -/
def Obligations.StepFollowsTheTick : Prop :=
  ∀ s : State, WholeCycle s →
    ∃ t ob, step s = .next t ∧ t.last = some ob ∧ ob.inputs = inputsOf s ∧
      (ob.outputs, t.core) = tick s.cfg s.core (inputsOf s) (drawOf s)

/-- Rules R181, R184, R200 (D1; log entries 26 and 27): no step faults; a command and a step are refused exactly for a
configuration that is not well-formed and for a reset line that changes inside the cycle, and run in every other
state. -/
def Obligations.RefusedOnlyOutsideTheCycleModel : Prop :=
  ∀ (s : State) (i : Instr),
    (s.cfg.wf = false →
      exec i s = .refused .configurationNotWellFormed ∧ step s = .refused .configurationNotWellFormed) ∧
    (s.cfg.wf = true → (currentEvent s).rst = .midCycle →
      exec i s = .refused .resetChangesMidCycle ∧ step s = .refused .resetChangesMidCycle) ∧
    (s.cfg.wf = true → (currentEvent s).rst ≠ .midCycle →
      (∃ t, exec i s = .next t) ∧ (∃ t, step s = .next t))

/-- Rules R27, R184: no command and no reset changes the configuration, and every step is one cycle. -/
def Obligations.ConfigurationNeverChanges : Prop :=
  ∀ s t : State, step s = .next t → t.cfg = s.cfg ∧ t.cycle = s.cycle + 1 ∧ t.events = s.events.tail

/-! ### Command Control (40_command_control.md) -/

/-- Rules R100, R101: what accepts a command, whatever the command is; the head is removed if it is accepted and stays
in place if it is not. -/
def Obligations.AcceptanceAndDequeue : Prop :=
  ∀ (i : Instr) (s : State), WholeCycle s →
    ∃ t ob added, exec i s = .next t ∧ t.last = some ob ∧ ob.inputs = inputsOf s ∧
      ob.outputs.rxDequeue =
        (!(s.cfg.exInReset == .gated && ob.inputs.rst) && !ob.inputs.rxEmpty && !ob.inputs.txFull) ∧
      t.rx = (if ob.outputs.rxDequeue then s.rx.tail else s.rx) ++ added

/-- Rule R107: a cycle with the receive queue empty or the transmit queue full strobes nothing and triggers nothing,
Cycle Control still counts, and the cycle after it answers nothing. -/
def Obligations.UnacceptedCycleDoesNothing : Prop :=
  ∀ (i : Instr) (s : State), WholeCycle s → (s.rx = [] ∨ txFull s = true) →
    ∃ t ob, exec i s = .next t ∧ t.last = some ob ∧
      ob.outputs.rxDequeue = false ∧ ob.outputs.pWriteEnable = false ∧ ob.outputs.pReset = false ∧
      t.core.pipe.nop = true ∧
      ((currentEvent s).rst = .low → t.core.cc =
        if s.core.cc.mode = .manual ∧ s.core.cc.remainingSteps ≠ 0 then ⟨.manual, s.core.cc.remainingSteps - 1⟩
        else s.core.cc) ∧
      ∀ u ob', step t = .next u → u.last = some ob' → ob'.outputs.txEnqueue = false

/-- Rule R103 (for unaccepted cycles the spec's own choice D16; log entry 25): the peripheral's address and write-data
lines carry the head word's fields in every cycle, accepted or not. -/
def Obligations.PeripheralLinesFollowHead : Prop :=
  ∀ s : State, WholeCycle s →
    ∃ t ob, step s = .next t ∧ t.last = some ob ∧
      ob.outputs.pAddr = sliceBits ob.inputs.rxData s.cfg.layout.address ∧
      ob.outputs.pWriteData = sliceBits ob.inputs.rxData s.cfg.layout.data

/-- Rule R104: write-enable exactly in the cycle of an accepted WRITE, reset exactly in that of an accepted RESET,
never both. -/
def Obligations.StrobesOnlyForWriteAndReset : Prop :=
  ∀ s : State, WholeCycle s →
    ∃ t ob, step s = .next t ∧ t.last = some ob ∧
      (ob.outputs.pWriteEnable = true ↔
        ob.outputs.rxDequeue = true ∧ sliceBits ob.inputs.rxData s.cfg.layout.opcode = s.cfg.opcodes.write) ∧
      (ob.outputs.pReset = true ↔
        ob.outputs.rxDequeue = true ∧ sliceBits ob.inputs.rxData s.cfg.layout.opcode = s.cfg.opcodes.reset) ∧
      ¬(ob.outputs.pWriteEnable = true ∧ ob.outputs.pReset = true)

/-- Rule R106 (the raw opcode, the snapshot and the payload of unaccepted cycles are the spec's choices D5, D6, D17,
the payload after a reset D18; log entries 13 and 25): the pipeline register's next value, loaded in every cycle; the
external reset overrides it. -/
def Obligations.PipelineLoadsEveryCycle : Prop :=
  ∀ s : State, WholeCycle s →
    ∃ t ob, step s = .next t ∧ t.last = some ob ∧
      t.core.pipe =
        if ob.inputs.rst then ⟨true, 0, 0, 0⟩
        else
          ⟨!ob.outputs.rxDequeue, sliceBits ob.inputs.rxData s.cfg.layout.opcode,
            sliceBits ob.inputs.rxData s.cfg.layout.address, t.core.cc.remainingSteps⟩

/-- Rules R67, R70: a field that a command ignores changes nothing but what the write-data line carries: the data
field of all but WRITE, the value field of all but STEP. -/
def Obligations.IgnoredFieldsHaveNoEffect : Prop :=
  ∀ (s : State) (op a d v d' v' : Nat), WholeCycle s →
    AgreeButForWriteData (.read a d v) (.read a d' v') s ∧
    AgreeButForWriteData (.write a d v) (.write a d v') s ∧
    AgreeButForWriteData (.reset a d v) (.reset a d' v') s ∧
    AgreeButForWriteData (.step a d v) (.step a d' v) s ∧
    AgreeButForWriteData (.start a d v) (.start a d' v') s ∧
    AgreeButForWriteData (.pause a d v) (.pause a d' v') s ∧
    AgreeButForWriteData (.status a d v) (.status a d' v') s ∧
    AgreeButForWriteData (.nop op a d v) (.nop op a d' v') s

/-! ### Cycle Control (41_cycle_control.md) -/

/-- Rule R130: the clock enable from the cycle-control state the cycle reads, whatever the command. -/
def Obligations.ClockEnableIsAFunctionOfState : Prop :=
  ∀ (i : Instr) (s : State), WholeCycle s →
    ∃ t ob, exec i s = .next t ∧ t.last = some ob ∧
      (ob.outputs.pClockEnable = true ↔
        (effectiveCore s).cc.mode = .autonomous ∨
        ((effectiveCore s).cc.mode = .manual ∧ (effectiveCore s).cc.remainingSteps ≠ 0))

/-- Rule R131 (STEP while stepping is the open parameter of D11; STEP and START in AUTONOMOUS and PAUSE in MANUAL are
the spec's choices D12 to D14; log entries 12 and 15): the next cycle-control state for every command, under every
`STEP_REARM` policy; the external reset overrides it. -/
def Obligations.CycleControlNextState : Prop :=
  ∀ (i : Instr) (s : State), WholeCycle s →
    ∃ t, exec i s = .next t ∧
      ((currentEvent s).rst = .high → t.core.cc = ⟨.manual, 0⟩) ∧
      ((currentEvent s).rst = .low → t.core.cc =
        (let trig := if accept s then commandTrigger i else .none
         let n := trunc s.cfg.layout.value.width (fieldsOf s.cfg.opcodes i).value
         let k := s.core.cc.remainingSteps
         if trig = .start then ⟨.autonomous, 0⟩
         else if trig = .pause ∧ s.core.cc.mode = .autonomous then ⟨.manual, 0⟩
         else if trig = .step ∧ s.core.cc.mode = .manual then
           (if k = 0 ∨ s.cfg.stepRearm = .reload then ⟨.manual, n⟩
            else if s.cfg.stepRearm = .ignore then ⟨.manual, k - 1⟩
            else ⟨.manual, min (k - 1 + n) (2 ^ s.cfg.layout.value.width - 1)⟩)
         else if s.core.cc.mode = .manual ∧ k ≠ 0 then ⟨.manual, k - 1⟩
         else s.core.cc))

/-- Rule R132: in MANUAL mode with a count in progress and no START or STEP trigger, the count goes down by exactly 1,
the experiment is clocked once, and neither depends on the queues or the command. -/
def Obligations.CountingMatchesClockedEdges : Prop :=
  ∀ (i : Instr) (s : State), RunsFree s → s.core.cc.mode = .manual → s.core.cc.remainingSteps ≠ 0 →
    (accept s = true → commandTrigger i ≠ .start ∧ commandTrigger i ≠ .step) →
    ∃ t, exec i s = .next t ∧ t.core.cc.mode = .manual ∧
      t.core.cc.remainingSteps + 1 = s.core.cc.remainingSteps ∧
      t.peripheral.clockedEdges = s.peripheral.clockedEdges + 1

/-- Rule R134 (1), (2), an inference of the spec: no step leaves a count in AUTONOMOUS mode, and without a STEP
trigger no step makes the count larger, so it never wraps. -/
def Obligations.AutonomousHoldsNoCount : Prop :=
  (State.reset.core.cc.mode = .autonomous → State.reset.core.cc.remainingSteps = 0) ∧
  ∀ s t : State, (s.core.cc.mode = .autonomous → s.core.cc.remainingSteps = 0) → step s = .next t →
    (t.core.cc.mode = .autonomous → t.core.cc.remainingSteps = 0) ∧
    (NoTrigger [.step] s → t.core.cc.remainingSteps ≤ s.core.cc.remainingSteps)

/-- Rule R135, the spec's own choice D6 (log entry 13): the snapshot latched in every cycle is the count Cycle Control
holds after the edge, so it is the count of the RESPOND cycle. -/
def Obligations.SnapshotIsTheCountAfterTheEdge : Prop :=
  ∀ (i : Instr) (s : State), WholeCycle s →
    ∃ t, exec i s = .next t ∧ t.core.pipe.cycleCount = t.core.cc.remainingSteps

/-! ### Each command completes (40_command_control.md, 41_cycle_control.md)

The hypotheses are those under which a command is accepted (rule R100) with the reset line low. The address echo of
the answers is the spec's choice D10, the fields an answer leaves free are D8 and D9, the count in it D6 and the mode
bit D7 (log entries 4, 13, 14). -/

/-- Rule R110: READ drives its address, strobes nothing, lets Cycle Control count, and is answered with the `readData`
of the next cycle, which under P_RD (D15; log entry 2) is the addressed location's content. -/
def Obligations.ReadCompletes : Prop :=
  ∀ (s : State) (a d v : Nat), TakesCommand s →
    ∃ t, exec (.read a d v) s = .next t ∧
      t.core = ⟨⟨false, s.cfg.opcodes.read, a, (countDown s.core.cc).remainingSteps⟩, countDown s.core.cc⟩ ∧
      t.last = some ⟨inputsOf s,
        ⟨true, a, d, false, false, clockEnable s.core.cc, txEnqueue s, responseWord s⟩, losesResponse s⟩ ∧
      (PRD s → a < s.cfg.locations → t.peripheral.readData = readCell t.peripheral.locations a) ∧
      AnswersNext t fun readData w => ∃ x, w = encodeFields s.cfg.layout ⟨s.cfg.opcodes.read, a, readData, x⟩

/-- Rule R111: WRITE strobes write-enable for this one cycle; the location holds the data after the edge (D15; log
entry 2) unless the peripheral itself changes it there. -/
def Obligations.WriteCompletes : Prop :=
  ∀ (s : State) (a d v : Nat), TakesCommand s →
    ∃ t, exec (.write a d v) s = .next t ∧
      t.core = ⟨⟨false, s.cfg.opcodes.write, a, (countDown s.core.cc).remainingSteps⟩, countDown s.core.cc⟩ ∧
      t.last = some ⟨inputsOf s,
        ⟨true, a, d, true, false, clockEnable s.core.cc, txEnqueue s, responseWord s⟩, losesResponse s⟩ ∧
      (memoryWf s.peripheral.locations = true → a < s.cfg.locations → LeavesAlone s a →
        readCell t.peripheral.locations a = trunc s.cfg.layout.data.width d) ∧
      AnswersNext t fun _ w => ∃ x y, w = encodeFields s.cfg.layout ⟨s.cfg.opcodes.write, a, x, y⟩

/-- Rule R112: the RESET command strobes the peripheral's reset for this one cycle, which sets the locations the
configuration says, to the values it says, at the edge (D28; log entry 21); the core only counts. -/
def Obligations.ResetCommandCompletes : Prop :=
  ∀ (s : State) (a d v : Nat), TakesCommand s →
    ∃ t, exec (.reset a d v) s = .next t ∧
      t.core = ⟨⟨false, s.cfg.opcodes.reset, a, (countDown s.core.cc).remainingSteps⟩, countDown s.core.cc⟩ ∧
      t.last = some ⟨inputsOf s,
        ⟨true, a, d, false, true, clockEnable s.core.cc, txEnqueue s, responseWord s⟩, losesResponse s⟩ ∧
      (∀ b x, memoryWf s.peripheral.locations = true → b < s.cfg.locations → LeavesAlone s b →
        (∃ r ∈ s.cfg.resetRegions, r.base ≤ b ∧ b < r.base + r.size) →
        (∀ r ∈ s.cfg.resetRegions, r.base ≤ b → b < r.base + r.size → r.value = x) →
        readCell t.peripheral.locations b = trunc s.cfg.layout.data.width x) ∧
      AnswersNext t fun _ w => ∃ x y, w = encodeFields s.cfg.layout ⟨s.cfg.opcodes.reset, a, x, y⟩

/-- Rule R113: an unrecognized opcode is accepted like any command, strobes and triggers nothing, and is answered with
its opcode echoed. -/
def Obligations.ImplicitNopCompletes : Prop :=
  ∀ (s : State) (op a d v : Nat), TakesCommand s → op ∉ s.cfg.opcodes.toList →
    ∃ t, exec (.nop op a d v) s = .next t ∧
      t.core = ⟨⟨false, op, a, (countDown s.core.cc).remainingSteps⟩, countDown s.core.cc⟩ ∧
      t.last = some ⟨inputsOf s,
        ⟨true, a, d, false, false, clockEnable s.core.cc, txEnqueue s, responseWord s⟩, losesResponse s⟩ ∧
      AnswersNext t fun _ w => ∃ x y z, w = encodeFields s.cfg.layout ⟨op, x, y, z⟩

/-- Rule R140: STEP in MANUAL loads the count, under the configured policy if one is in progress (D11; log entry 12);
in AUTONOMOUS it changes nothing (D12; log entry 15). The answer carries the count after the edge. -/
def Obligations.StepCommandCompletes : Prop :=
  ∀ (s : State) (a d n : Nat), TakesCommand s → n < 2 ^ s.cfg.layout.value.width →
    ∃ t, exec (.step a d n) s = .next t ∧
      (s.core.cc.mode = .manual → s.core.cc.remainingSteps = 0 ∨ s.cfg.stepRearm = .reload →
        t.core.cc = ⟨.manual, n⟩) ∧
      (s.core.cc.mode = .manual → s.core.cc.remainingSteps ≠ 0 → s.cfg.stepRearm = .ignore →
        t.core.cc = ⟨.manual, s.core.cc.remainingSteps - 1⟩) ∧
      (s.core.cc.mode = .manual → s.core.cc.remainingSteps ≠ 0 → s.cfg.stepRearm = .extend →
        t.core.cc = ⟨.manual, min (s.core.cc.remainingSteps - 1 + n) (2 ^ s.cfg.layout.value.width - 1)⟩) ∧
      (s.core.cc.mode = .autonomous → t.core.cc = s.core.cc) ∧
      t.core.pipe = ⟨false, s.cfg.opcodes.step, a, t.core.cc.remainingSteps⟩ ∧
      t.last = some ⟨inputsOf s,
        ⟨true, a, d, false, false, clockEnable s.core.cc, txEnqueue s, responseWord s⟩, losesResponse s⟩ ∧
      AnswersNext t fun _ w =>
        ∃ x, w = encodeFields s.cfg.layout ⟨s.cfg.opcodes.step, a, x, t.core.cc.remainingSteps⟩

/-- Rule R141: START leaves AUTONOMOUS with no count, from any state (from AUTONOMOUS: D13; log entry 15), and the
enable is on from the next cycle. -/
def Obligations.StartCommandCompletes : Prop :=
  ∀ (s : State) (a d v : Nat), TakesCommand s →
    ∃ t, exec (.start a d v) s = .next t ∧
      t.core = ⟨⟨false, s.cfg.opcodes.start, a, 0⟩, ⟨.autonomous, 0⟩⟩ ∧ clockEnable t.core.cc = true ∧
      t.last = some ⟨inputsOf s,
        ⟨true, a, d, false, false, clockEnable s.core.cc, txEnqueue s, responseWord s⟩, losesResponse s⟩ ∧
      AnswersNext t fun _ w => ∃ x y, w = encodeFields s.cfg.layout ⟨s.cfg.opcodes.start, a, x, y⟩

/-- Rule R142: PAUSE in AUTONOMOUS leaves MANUAL idle, the enable on in its own cycle and off from the next; in MANUAL
the count goes on (D14; log entry 15). -/
def Obligations.PauseCommandCompletes : Prop :=
  ∀ (s : State) (a d v : Nat), TakesCommand s →
    ∃ t, exec (.pause a d v) s = .next t ∧
      (s.core.cc.mode = .autonomous →
        clockEnable s.core.cc = true ∧ t.core.cc = ⟨.manual, 0⟩ ∧ clockEnable t.core.cc = false) ∧
      (s.core.cc.mode = .manual → t.core.cc = countDown s.core.cc) ∧
      t.core.pipe = ⟨false, s.cfg.opcodes.pause, a, t.core.cc.remainingSteps⟩ ∧
      t.last = some ⟨inputsOf s,
        ⟨true, a, d, false, false, clockEnable s.core.cc, txEnqueue s, responseWord s⟩, losesResponse s⟩ ∧
      AnswersNext t fun _ w => ∃ x y, w = encodeFields s.cfg.layout ⟨s.cfg.opcodes.pause, a, x, y⟩

/-- Rule R143: STATUS does not affect Cycle Control, and its answer carries the mode and the count as they stand after
its own EX edge. -/
def Obligations.StatusCompletes : Prop :=
  ∀ (s : State) (a d v : Nat), TakesCommand s →
    ∃ t, exec (.status a d v) s = .next t ∧
      t.core = ⟨⟨false, s.cfg.opcodes.status, a, (countDown s.core.cc).remainingSteps⟩, countDown s.core.cc⟩ ∧
      t.last = some ⟨inputsOf s,
        ⟨true, a, d, false, false, clockEnable s.core.cc, txEnqueue s, responseWord s⟩, losesResponse s⟩ ∧
      AnswersNext t fun _ w => w = encodeFields s.cfg.layout
        ⟨s.cfg.opcodes.status, a, (if t.core.cc.mode = .autonomous then 1 else 0), t.core.cc.remainingSteps⟩

/-! ### Response Compose (42_response_compose.md) -/

/-- Rule R160: a response is enqueued exactly if the pipeline register holds a command and the transmit queue is not
full; one that meets a full queue is not enqueued and not tried again. -/
def Obligations.EnqueueRechecksTheFullFlag : Prop :=
  ∀ (i : Instr) (s : State), WholeCycle s →
    ∃ t ob, exec i s = .next t ∧ t.last = some ob ∧
      ob.outputs.txEnqueue = (!(effectiveCore s).pipe.nop && !ob.inputs.txFull) ∧
      ob.responseLost = (!(effectiveCore s).pipe.nop && ob.inputs.txFull) ∧
      (ob.inputs.txFull = true → t.tx = s.tx.drop (currentEvent s).txPop ∧ t.core.pipe.nop = true)

/-- Rules R161, R162, R163: the fields of the response, for every class of the answered command; `x`, `y` and `z` are
whatever the don't-care cells carry. The table's address echo is the spec's choice D10, the STATUS cells and the mode
bit D7, the free cells D8 and D9 (log entries 4 and 14). -/
def Obligations.ResponseFieldsFollowTheTable : Prop :=
  ∀ (i : Instr) (s : State), WholeCycle s →
    ∃ t ob x y z, exec i s = .next t ∧ t.last = some ob ∧
      ob.outputs.txData =
        (let r := effectiveCore s
         let c := classOf s.cfg.opcodes r.pipe.opcode
         encodeFields s.cfg.layout
          ⟨r.pipe.opcode,
            if c = .nop then x else r.pipe.address,
            if c = .read then ob.inputs.readData
            else if c = .status then (if r.cc.mode = .autonomous then 1 else 0)
            else y,
            if c = .step ∨ c = .status then r.pipe.cycleCount else z⟩)

/-- Rules R167, R222, R224: a cycle enqueues a response exactly if the cycle before it accepted a command, neither
cycle had the reset line high, and the transmit queue is not full. -/
def Obligations.OneResponseOneCycleLater : Prop :=
  ∀ (s t u : State) (ob ob' : Observation), step s = .next t → t.last = some ob → step t = .next u →
    u.last = some ob' →
    ob'.outputs.txEnqueue = (ob.outputs.rxDequeue && !ob.inputs.rst && !ob'.inputs.rst && !ob'.inputs.txFull)

/-- Rules R52, R167, R227: along every run without reset in which P_TX holds in each cycle, the responses carry the
opcodes of the accepted commands, each once and in order, one cycle behind. The opcodes are all
it compares; which of two commands with one opcode a response answers is rule R167's (`OneResponseOneCycleLater`). -/
def Obligations.ResponsesFollowCommandsInOrder : Prop :=
  ∀ (obs : List Observation) (s t : State), s.core.pipe.opcode < 2 ^ s.cfg.layout.opcode.width →
    Shows (fun u => RunsFree u ∧ PTX u) obs s t →
    pendingOpcodes s ++ acceptedOpcodes s.cfg.layout obs =
      answeredOpcodes s.cfg.layout obs ++ pendingOpcodes t

/-- Rules R226, R227: after a cycle without reset, the next one loses a response exactly if the transmit queue had one
free slot above the margin, a response went into it, a command was accepted, and the host removed no word. -/
def Obligations.ResponseLostExactlyWhen : Prop :=
  ∀ s t : State, RunsFree s → step s = .next t → RunsFree t →
    ∃ u ob, step t = .next u ∧ u.last = some ob ∧
      (ob.responseLost = true ↔
        accept s = true ∧ txEnqueue s = true ∧ freeSlots s = s.cfg.txFullMargin + 1 ∧ removedWords s = 0)

/-! ### The queues and the peripheral (20_memory.md) -/

/-- Rules R45, R46, R183: what the edge does to the queues and the experiment's clock. That a word with no free slot
is not in the receive queue, and that only words there before the edge can be removed, are the model's choices (log
entries 9 and 11). -/
def Obligations.EdgeUpdatesQueuesAndClock : Prop :=
  ∀ (i : Instr) (s : State), WholeCycle s →
    ∃ t ob, exec i s = .next t ∧ t.last = some ob ∧
      t.rx = (let kept := if ob.outputs.rxDequeue then s.rx.tail else s.rx
        kept ++ (((currentEvent s).rxPush.map (trunc s.cfg.layout.wordWidth)).take (s.cfg.rxDepth - kept.length))) ∧
      t.tx = s.tx.drop (currentEvent s).txPop ++ (if ob.outputs.txEnqueue then [ob.outputs.txData] else []) ∧
      t.peripheral.clockedEdges = s.peripheral.clockedEdges + (if ob.outputs.pClockEnable then 1 else 0)

/-- Rules R104, R131, R49: the frame of the commands without a strobe (READ, STEP, START, PAUSE, STATUS, NOP): every
location the peripheral itself does not change reads as before, and a command without a trigger leaves `cc` to
counting. -/
def Obligations.CommandsWithoutStrobeKeepMemory : Prop :=
  ∀ (i : Instr) (s t : State), exec i s = .next t → (∀ a d v, i ≠ .write a d v) → (∀ a d v, i ≠ .reset a d v) →
    t.cfg = s.cfg ∧
    (∀ b, LeavesAlone s b → readCell t.peripheral.locations b = readCell s.peripheral.locations b) ∧
    ((currentEvent s).rst = .low → commandTrigger i = .none → t.core.cc = countDown s.core.cc)

/-- Rules R41, R49, R112: the frame of the commands with a strobe. WRITE changes no location but the one addressed,
RESET none outside the reset regions, and neither touches `cc` but for counting; a command that waits changes none.
That a WRITE to an address with no location changes no location at all, and that RESET sets the configured regions and
nothing else, are the model's choices (log entries 6 and 21; D28). -/
def Obligations.StrobedCommandsKeepOtherLocations : Prop :=
  ∀ (s t : State) (a d v : Nat),
    (exec (.write a d v) s = .next t → t.cfg = s.cfg ∧
      ((currentEvent s).rst = .low → t.core.cc = countDown s.core.cc) ∧
      ∀ b, LeavesAlone s b → b ≠ a ∨ accept s = false →
        readCell t.peripheral.locations b = readCell s.peripheral.locations b) ∧
    (exec (.reset a d v) s = .next t → t.cfg = s.cfg ∧
      ((currentEvent s).rst = .low → t.core.cc = countDown s.core.cc) ∧
      ∀ b, LeavesAlone s b →
        (∀ r ∈ s.cfg.resetRegions, ¬(r.base ≤ b ∧ b < r.base + r.size)) ∨ accept s = false →
        readCell t.peripheral.locations b = readCell s.peripheral.locations b)

/-- Rule R43: at an edge that is no clocked one the experiment's clocked logic holds: what it would have changed is of
no consequence to the whole machine, and its clock is not advanced. -/
def Obligations.ClockedLogicHoldsWhenDisabled : Prop :=
  ∀ (i : Instr) (s : State) (ev : Event) (rest : List Event) (ws : List Cell), s.events = ev :: rest →
    clockEnable (effectiveCore s).cc = false →
    exec i s = exec i { s with events := { ev with clockedWrites := ws } :: rest } ∧
    ∀ t, exec i s = .next t → t.peripheral.clockedEdges = s.peripheral.clockedEdges

/-- Rule R44, a premise on the environment (D15; log entry 2): where the peripheral meets P_RD, `readData` in the next
cycle is the content of the addressed location as it stands after the edge, in every cycle without a strobe (so for
every READ) and, if the peripheral reads after the core's access, in the others too; if it reads before (rule R56), it
is the content before the edge, where the peripheral itself leaves the location alone. -/
def Obligations.ReadDataUnderPRD : Prop :=
  ∀ s : State, WholeCycle s → PRD s →
    ∃ t ob, step s = .next t ∧ t.last = some ob ∧
      (ob.outputs.pAddr < s.cfg.locations →
        (s.cfg.readTiming = .afterEdge ∨ (ob.outputs.pWriteEnable = false ∧ ob.outputs.pReset = false) →
          t.peripheral.readData = readCell t.peripheral.locations ob.outputs.pAddr) ∧
        (s.cfg.readTiming = .beforeAccess → LeavesAlone s ob.outputs.pAddr →
          t.peripheral.readData = readCell s.peripheral.locations ob.outputs.pAddr))

/-- Rules R53, R228 (D15; log entry 2): a READ accepted in the cycle after a WRITE to the same location is answered
with the written data, under P_RD and P_TX and with no reset, where the peripheral itself leaves the location alone.
That the answer carries the address is the spec's choice D10 (log entry 14). -/
def Obligations.ReadAfterWriteReturnsTheData : Prop :=
  ∀ (s t u : State) (w w' : Word) (rest : List Word) (a d v d' v' : Nat),
    s.rx = w :: w' :: rest → decodeWord s.cfg w = .write a d v → decodeWord s.cfg w' = .read a d' v' →
    a < s.cfg.locations → memoryWf s.peripheral.locations = true →
    TakesCommand s → LeavesAlone s a → step s = .next t →
    TakesCommand t → LeavesAlone t a → PRD t → step t = .next u →
    RunsFree u → txFull u = false →
    ∃ x ob, step u = .next x ∧ x.last = some ob ∧ ob.outputs.txEnqueue = true ∧
      (decodeFields s.cfg.layout ob.outputs.txData).opcode = s.cfg.opcodes.read ∧
      (decodeFields s.cfg.layout ob.outputs.txData).address = a ∧
      (decodeFields s.cfg.layout ob.outputs.txData).data = d

/-- Rule R53 (D15; log entry 2): a WRITE accepted in the cycle after a READ does not affect the READ's data: it is the
location's content after the READ's own edge. -/
def Obligations.WriteAfterReadKeepsTheData : Prop :=
  ∀ (s t : State) (w w' : Word) (rest : List Word) (a d v b d' v' : Nat),
    s.rx = w :: w' :: rest → decodeWord s.cfg w = .read a d v → decodeWord s.cfg w' = .write b d' v' →
    a < s.cfg.locations → cellsInRange s.cfg s.peripheral.locations = true →
    TakesCommand s → PRD s → step s = .next t → TakesCommand t →
    ∃ u ob, step t = .next u ∧ u.last = some ob ∧ ob.outputs.txEnqueue = true ∧ ob.outputs.pWriteEnable = true ∧
      (decodeFields s.cfg.layout ob.outputs.txData).data = readCell t.peripheral.locations a

/-! ### Clocking over several cycles (41_cycle_control.md) -/

/-- Rule R140: STEP `n` from MANUAL idle clocks the experiment in exactly the `n` cycles that follow, and the state is
MANUAL idle again after them, while no further trigger is accepted and no reset comes. -/
def Obligations.StepClocksExactlyN : Prop :=
  ∀ (s t u : State) (a d n k : Nat), TakesCommand s → s.core.cc = ⟨.manual, 0⟩ →
    n < 2 ^ s.cfg.layout.value.width → exec (.step a d n) s = .next t → RunsTo Undisturbed k t u →
    t.peripheral.clockedEdges = s.peripheral.clockedEdges ∧
    u.peripheral.clockedEdges = s.peripheral.clockedEdges + min n k ∧
    u.core.cc = ⟨.manual, n - k⟩ ∧ (clockEnable u.core.cc = true ↔ k < n)

/-- Rule R141: after a START the experiment is clocked in every cycle, whatever other commands are accepted, until a
PAUSE is accepted or the reset line goes high. That a STEP is ignored and a START changes nothing meanwhile are the
spec's choices D12 and D13 (log entry 15). -/
def Obligations.StartClocksUntilPause : Prop :=
  ∀ (s t u : State) (a d v k : Nat), TakesCommand s → exec (.start a d v) s = .next t → RunsTo Unpaused k t u →
    u.core.cc = ⟨.autonomous, 0⟩ ∧ clockEnable u.core.cc = true ∧
    u.peripheral.clockedEdges = t.peripheral.clockedEdges + k

/-! ### Reset (70_reset_and_hazards.md) -/

/-- Rule R31 (the payload's zeros are the spec's choice D18; log entry 25): the reset values, and what they make of
the outputs. -/
def Obligations.ResetValues : Prop :=
  State.reset.core = ⟨⟨true, 0, 0, 0⟩, ⟨.manual, 0⟩⟩ ∧
  ∀ s : State, s.core = ⟨⟨true, 0, 0, 0⟩, ⟨.manual, 0⟩⟩ → WholeCycle s →
    ∃ t ob, step s = .next t ∧ t.last = some ob ∧ t.cfg = s.cfg ∧
      ob.outputs.pClockEnable = false ∧ ob.outputs.txEnqueue = false

/-- Rules R181, R203, R220 (whole-cycle resets: D1, log entry 27; the payload's zeros: D18, log entry 25): in a cycle with the reset line high the state reads
as reset, nothing is enqueued and nothing clocked, and the state after the edge is the reset state, whatever the
command and whatever was in flight. -/
def Obligations.ResetLineForcesTheResetState : Prop :=
  ∀ (i : Instr) (s : State), s.cfg.wf = true → (currentEvent s).rst = .high →
    ∃ t ob, exec i s = .next t ∧ t.last = some ob ∧ t.core = ⟨⟨true, 0, 0, 0⟩, ⟨.manual, 0⟩⟩ ∧
      ob.outputs.txEnqueue = false ∧ ob.outputs.pClockEnable = false ∧
      t.cfg = s.cfg ∧ t.tx = s.tx.drop (currentEvent s).txPop ∧
      t.peripheral.clockedEdges = s.peripheral.clockedEdges

/-- Rule R224: a reset cycle under both values of `EX_IN_RESET`. `active`: it still accepts on the condition of rule
R100, dequeues and strobes, and the command gets no response. `gated`: it accepts nothing. -/
def Obligations.ExStageDuringReset : Prop :=
  ∀ s : State, s.cfg.wf = true → (currentEvent s).rst = .high →
    ∃ t ob, step s = .next t ∧ t.last = some ob ∧
      (s.cfg.exInReset = .active → ob.outputs.rxDequeue = (!s.rx.isEmpty && !txFull s) ∧
        ob.outputs.pWriteEnable = (ob.outputs.rxDequeue &&
          sliceBits ob.inputs.rxData s.cfg.layout.opcode == s.cfg.opcodes.write) ∧
        ob.outputs.pReset = (ob.outputs.rxDequeue &&
          sliceBits ob.inputs.rxData s.cfg.layout.opcode == s.cfg.opcodes.reset)) ∧
      (s.cfg.exInReset = .gated →
        ob.outputs.rxDequeue = false ∧ ob.outputs.pWriteEnable = false ∧ ob.outputs.pReset = false) ∧
      ∀ u ob', step t = .next u → u.last = some ob' → ob'.outputs.txEnqueue = false

/-- Rule R222: a command accepted in the cycle before a reset cycle has been dequeued and gets no response, in the
reset cycle or after it. -/
def Obligations.StraddlingCommandGetsNoResponse : Prop :=
  ∀ s t : State, TakesCommand s → step s = .next t → (currentEvent t).rst = .high →
    ∃ ob u ob', t.last = some ob ∧ ob.outputs.rxDequeue = true ∧ step t = .next u ∧ u.last = some ob' ∧
      ob'.outputs.txEnqueue = false ∧ pendingOpcodes u = [] ∧
      ∀ x ob'', step u = .next x → x.last = some ob'' → ob''.outputs.txEnqueue = false

/-- Rule R221: after reset the machine is in MANUAL idle with no command in the pipeline; the first cycle with the
reset line low can accept a command, enqueues nothing, and the response comes in the cycle after. -/
def Obligations.FirstCommandAfterReset : Prop :=
  ∀ s : State, s.core = State.reset.core → TakesCommand s →
    ∃ t ob, step s = .next t ∧ t.last = some ob ∧ ob.outputs.rxDequeue = true ∧ ob.outputs.txEnqueue = false ∧
      ob.outputs.pClockEnable = false ∧
      (RunsFree t → txFull t = false → ∃ u ob', step t = .next u ∧ u.last = some ob' ∧ ob'.outputs.txEnqueue = true)

/-! ### The invariant -/

/-- The machine after reset meets the invariant. -/
def Obligations.ResetMeetsTheInvariant : Prop := Invariant State.reset

/-- Rules R8, R10, R134, R135, R40, R60: every step from a state that meets the invariant, reachable or not, gives a
state that meets it. -/
def Obligations.StepKeepsTheInvariant : Prop :=
  ∀ s t : State, Invariant s → step s = .next t → Invariant t

/-! ### The reference peripheral (20_memory.md rule R56) -/

/-- Rule R56, the spec's own peripheral for its vectors (D15, D28; log entries 1, 2 and 21), which the reset state has:
at every edge the read register takes the addressed location as it stood before the edge, then a write lands, then a
reset clears every location. -/
def Obligations.ReferencePeripheralEdge : Prop :=
  (State.reset.cfg.readTiming = .beforeAccess ∧
    State.reset.cfg.locations = 2 ^ State.reset.cfg.layout.address.width ∧
    State.reset.cfg.resetRegions = [⟨0, 2 ^ State.reset.cfg.layout.address.width, 0⟩] ∧
    ∀ a, readCell State.reset.peripheral.locations a = 0) ∧
  ∀ s : State, WholeCycle s → s.cfg.readTiming = .beforeAccess →
    s.cfg.locations = 2 ^ s.cfg.layout.address.width → s.cfg.resetRegions = [⟨0, 2 ^ s.cfg.layout.address.width, 0⟩] →
    memoryWf s.peripheral.locations = true → PRD s → (∀ a, LeavesAlone s a) →
    ∃ t ob, step s = .next t ∧ t.last = some ob ∧
      t.peripheral.readData = readCell s.peripheral.locations ob.outputs.pAddr ∧
      ∀ a, a < s.cfg.locations → readCell t.peripheral.locations a =
        if ob.outputs.pReset then 0
        else if ob.outputs.pWriteEnable ∧ a = ob.outputs.pAddr then ob.outputs.pWriteData
        else readCell s.peripheral.locations a

end
end

