-- ==== Sys2Proof/Laws/Codec.lean ====
section
/-! SUPPORT. The Field Codec: slices and slots bit by bit, and what the class of an opcode says. -/

namespace Sys2Proof

theorem testBit_trunc (n v i : Nat) : (trunc n v).testBit i = (decide (i < n) && v.testBit i) :=
  Nat.testBit_mod_two_pow v n i

theorem trunc_lt (n v : Nat) : trunc n v < 2 ^ n := Nat.mod_lt _ (by positivity)

theorem trunc_eq_self {n v : Nat} (h : v < 2 ^ n) : trunc n v = v := Nat.mod_eq_of_lt h

@[simp] theorem trunc_trunc (n v : Nat) : trunc n (trunc n v) = trunc n v := Nat.mod_mod _ _

/-- Bit `i` of a slice is bit `lo + i` of the word, within the range. -/
theorem testBit_sliceBits (v : Nat) (r : BitRange) (i : Nat) :
    (sliceBits v r).testBit i = (decide (i < r.width) && v.testBit (r.lo + i)) := by
  rw [sliceBits, testBit_trunc, Nat.testBit_shiftRight]

/-- Bit `i` of a placed value is bit `i - lo` of the value, within the range. -/
theorem testBit_placeBits (r : BitRange) (v i : Nat) :
    (placeBits r v).testBit i = (decide (r.lo ≤ i) && decide (i < r.lo + r.width) && v.testBit (i - r.lo)) := by
  rw [placeBits, Nat.testBit_shiftLeft, testBit_trunc]
  by_cases h : r.lo ≤ i
  · simp only [ge_iff_le, h, decide_true, Bool.true_and]
    congr 1
    exact decide_eq_decide.2 (by omega)
  · simp [h]

theorem sliceBits_lt (v : Nat) (r : BitRange) : sliceBits v r < 2 ^ r.width := trunc_lt _ _

/-- Reading back the slot a value was placed in gives the value cut to the slot. -/
theorem sliceBits_placeBits_self (r : BitRange) (v : Nat) : sliceBits (placeBits r v) r = trunc r.width v := by
  refine Nat.eq_of_testBit_eq fun i => ?_
  rw [testBit_sliceBits, testBit_placeBits, testBit_trunc]
  by_cases h : i < r.width <;> simp [h]

/-- Two ranges that fit share no bit if they are disjoint. -/
theorem BitRange.disjoint_bits {r q : BitRange} {W : Nat} (hr : r.fits W = true) (hq : q.fits W = true)
    (h : r.disjoint q = true) : r.lo + r.width ≤ q.lo ∨ q.lo + q.width ≤ r.lo := by
  simp only [BitRange.fits, BitRange.disjoint, Bool.and_eq_true, Bool.or_eq_true, decide_eq_true_eq] at *
  unfold BitRange.width
  omega

/-- A slot that shares no bit with a range reads as 0 through it. -/
theorem sliceBits_placeBits_disjoint {r q : BitRange} (h : r.lo + r.width ≤ q.lo ∨ q.lo + q.width ≤ r.lo) (v : Nat) :
    sliceBits (placeBits r v) q = 0 := by
  refine Nat.eq_of_testBit_eq fun i => ?_
  rw [testBit_sliceBits, testBit_placeBits]
  by_cases hi : i < q.width
  · have : ¬(r.lo ≤ q.lo + i ∧ q.lo + i < r.lo + r.width) := by omega
    simp only [hi, decide_true, Bool.true_and, Nat.zero_testBit, Bool.and_eq_false_imp, Bool.and_eq_true,
      decide_eq_true_eq]
    exact fun hb => absurd hb this
  · simp [hi]

/-- Two slots that share no bit have no common bit set. -/
theorem placeBits_and_disjoint {r q : BitRange} (h : r.lo + r.width ≤ q.lo ∨ q.lo + q.width ≤ r.lo) (v w : Nat) :
    placeBits r v &&& placeBits q w = 0 := by
  refine Nat.eq_of_testBit_eq fun i => ?_
  rw [Nat.testBit_and, testBit_placeBits, testBit_placeBits, Nat.zero_testBit]
  by_cases h1 : r.lo ≤ i <;> by_cases h2 : i < r.lo + r.width <;> simp [h1, h2]
  omega

/-- Numbers with no common bit set are added by OR. -/
theorem or_eq_add_of_and_eq_zero {a b : Nat} (h : a &&& b = 0) : a ||| b = a + b := by
  have hlt : a + b < 2 ^ (a + b) := Nat.lt_two_pow_self
  have hb := BitVec.add_eq_or_of_and_eq_zero (BitVec.ofNat (a + b) a) (BitVec.ofNat (a + b) b) (by
    apply BitVec.eq_of_toNat_eq
    simp only [BitVec.toNat_and, BitVec.toNat_ofNat]
    rw [Nat.mod_eq_of_lt (by omega), Nat.mod_eq_of_lt (by omega), h, Nat.zero_mod])
  have hn := congrArg BitVec.toNat hb
  simp only [BitVec.toNat_or, BitVec.toNat_add, BitVec.toNat_ofNat] at hn
  rw [Nat.mod_eq_of_lt (a := a) (by omega), Nat.mod_eq_of_lt (a := b) (by omega), Nat.mod_eq_of_lt hlt] at hn
  exact hn.symm

theorem sliceBits_or (v w : Nat) (r : BitRange) : sliceBits (v ||| w) r = sliceBits v r ||| sliceBits w r := by
  refine Nat.eq_of_testBit_eq fun i => ?_
  simp only [testBit_sliceBits, Nat.testBit_or, Bool.and_or_distrib_left]

/-- A placed value lies within the word its range fits. -/
theorem placeBits_lt {r : BitRange} {W : Nat} (h : r.fits W = true) (v : Nat) : placeBits r v < 2 ^ W := by
  simp only [BitRange.fits, Bool.and_eq_true, decide_eq_true_eq] at h
  refine Nat.lt_pow_two_of_testBit _ fun i hi => ?_
  rw [testBit_placeBits]
  have : ¬(i < r.lo + r.width) := by unfold BitRange.width; omega
  simp [this]

/-- What a well-formed layout says, one part a name. -/
structure Layout.Parts (l : Layout) : Prop where
  opcode : l.opcode.fits l.wordWidth = true
  address : l.address.fits l.wordWidth = true
  data : l.data.fits l.wordWidth = true
  value : l.value.fits l.wordWidth = true
  opcode_address : l.opcode.disjoint l.address = true
  opcode_data : l.opcode.disjoint l.data = true
  opcode_value : l.opcode.disjoint l.value = true
  address_data : l.address.disjoint l.data = true
  address_value : l.address.disjoint l.value = true
  data_value : l.data.disjoint l.value = true
  opcode_room : 3 ≤ l.opcode.width

theorem Layout.parts {l : Layout} (h : l.wf = true) : l.Parts := by
  simp only [Layout.wf, Bool.and_eq_true, decide_eq_true_eq] at h
  obtain ⟨⟨⟨⟨⟨⟨⟨⟨⟨⟨h1, h2⟩, h3⟩, h4⟩, h5⟩, h6⟩, h7⟩, h8⟩, h9⟩, h10⟩, h11⟩ := h
  exact ⟨h1, h2, h3, h4, h5, h6, h7, h8, h9, h10, h11⟩

theorem Config.layout_wf {cfg : Config} (h : cfg.wf = true) : cfg.layout.wf = true := by
  simp only [Config.wf, Bool.and_eq_true] at h
  exact h.1.1

theorem Config.opcodes_wf {cfg : Config} (h : cfg.wf = true) :
    cfg.opcodes.wf cfg.layout.opcode.width = true := by
  simp only [Config.wf, Bool.and_eq_true] at h
  exact h.1.2

/-- An encoded word is a `W`-bit word. -/
theorem encodeFields_lt {l : Layout} (h : l.wf = true) (d : Decoded) : encodeFields l d < 2 ^ l.wordWidth := by
  have p := Layout.parts h
  exact Nat.or_lt_two_pow (Nat.or_lt_two_pow (Nat.or_lt_two_pow (placeBits_lt p.opcode _) (placeBits_lt p.address _))
    (placeBits_lt p.data _)) (placeBits_lt p.value _)

/-- The class of an opcode value says which of the seven values it is, or that it is none of them (30_encoding.md
rule R68). -/
theorem classOf_spec (o : Opcodes) (op : Nat) :
    match classOf o op with
    | .read => op = o.read
    | .write => op = o.write
    | .reset => op = o.reset
    | .step => op = o.step
    | .start => op = o.start
    | .pause => op = o.pause
    | .status => op = o.status
    | .nop => op ∉ o.toList := by
  unfold classOf
  split_ifs <;> simp_all [Opcodes.toList]

/-- The fields of the command that decoded fields stand for are those fields. -/
theorem fieldsOf_commandOf (o : Opcodes) (d : Decoded) : fieldsOf o (commandOf o d) = d := by
  have h := classOf_spec o d.opcode
  unfold commandOf
  split <;> rename_i hc <;> rw [hc] at h <;> first | rfl | (simp only at h; simp only [fieldsOf, ← h])

theorem fieldsOf_decodeWord (cfg : Config) (w : Word) :
    fieldsOf cfg.opcodes (decodeWord cfg w) = decodeFields cfg.layout w :=
  fieldsOf_commandOf _ _

end Sys2Proof
end

