-- ==== Sys2Proof/Laws/Memory.lean ====
section
/-! SUPPORT. The peripheral's register file: reading back, frames, and the canonical form every operation keeps. -/

namespace Sys2Proof.Machine

@[simp] theorem readCell_nil (a : Nat) : readCell [] a = unlistedItem := rfl

@[simp] theorem memoryWf_nil : memoryWf [] = true := rfl

/-- The canonical form of a longer list: its head's item is listed for a reason, its head's location is below every
other, and the rest is canonical. -/
theorem memoryWf_cons {b v : Nat} {rest : Memory} :
    memoryWf ((b, v) :: rest) = true ↔
      v ≠ unlistedItem ∧ (∀ c ∈ rest.head?, b < c.1) ∧ memoryWf rest = true := by
  cases rest with
  | nil => simp [memoryWf]
  | cons c rest => cases c; simp [memoryWf, and_assoc]

/-- In a canonical list a location below the head's is not listed. -/
theorem readCell_below : ∀ {m : Memory} {a : Nat}, memoryWf m = true → (∀ c ∈ m.head?, a < c.1) →
    readCell m a = unlistedItem
  | [], _, _, _ => rfl
  | (b, v) :: rest, a, h, hlt => by
    have hab : a < b := hlt (b, v) (by simp)
    obtain ⟨-, hb, hrest⟩ := memoryWf_cons.1 h
    rw [readCell, if_neg (by omega)]
    exact readCell_below hrest fun c hc => Nat.lt_trans hab (hb c hc)

/-- A write leaves every other location alone. -/
theorem readCell_writeCell_of_ne : ∀ (m : Memory) {a c : Nat} (v : Nat), c ≠ a →
    readCell (writeCell m a v) c = readCell m c
  | [], a, c, v, h => by
    simp only [writeCell]; split <;> simp [readCell, h]
  | (b, w) :: rest, a, c, v, h => by
    simp only [writeCell]
    split
    · split <;> simp [readCell, h]
    · split
      · subst b; split <;> simp [readCell, h]
      · simp only [readCell, readCell_writeCell_of_ne rest v h]

/-- A read after a write to the same location gives the item written. -/
theorem readCell_writeCell_self : ∀ {m : Memory} (a v : Nat), memoryWf m = true →
    readCell (writeCell m a v) a = v
  | [], a, v, _ => by
    simp only [writeCell]; split <;> simp_all [readCell]
  | (b, w) :: rest, a, v, h => by
    obtain ⟨-, hb, hrest⟩ := memoryWf_cons.1 h
    simp only [writeCell]
    split
    · rename_i hab
      split
      · rename_i hv
        rw [hv]
        exact readCell_below h (by simpa using hab)
      · simp [readCell]
    · split
      · subst b
        split
        · rename_i hv
          rw [hv]
          exact readCell_below hrest hb
        · simp [readCell]
      · rename_i hne
        rw [readCell, if_neg hne]
        exact readCell_writeCell_self a v hrest

/-- The head after a write is the old head or the location written. -/
theorem writeCell_head {m : Memory} {a v b : Nat} (hba : b < a) (h : ∀ c ∈ m.head?, b < c.1)
    (hwf : memoryWf m = true) : ∀ c ∈ (writeCell m a v).head?, b < c.1 := by
  cases m with
  | nil =>
    simp only [writeCell]; split <;> simp_all
  | cons c rest =>
    obtain ⟨d, w⟩ := c
    have hbd : b < d := h (d, w) (by simp)
    simp only [writeCell]
    split
    · split <;> simp_all
    · split
      · split
        · intro c hc
          exact Nat.lt_trans hbd ((memoryWf_cons.1 hwf).2.1 c hc)
        · simp_all
      · simp_all

/-- A write keeps the canonical form. -/
theorem memoryWf_writeCell : ∀ {m : Memory} (a v : Nat), memoryWf m = true → memoryWf (writeCell m a v) = true
  | [], a, v, _ => by
    simp only [writeCell]; split <;> simp_all [memoryWf]
  | (b, w) :: rest, a, v, h => by
    obtain ⟨hw, hb, hrest⟩ := memoryWf_cons.1 h
    simp only [writeCell]
    split
    · split
      · exact h
      · exact memoryWf_cons.2 ⟨‹_›, by simpa using ‹a < b›, h⟩
    · split
      · subst b
        split
        · exact hrest
        · exact memoryWf_cons.2 ⟨‹_›, hb, hrest⟩
      · exact memoryWf_cons.2 ⟨hw, writeCell_head (by omega) hb hrest, memoryWf_writeCell a v hrest⟩

theorem memoryWf_storeItem (cfg : Config) {m : Memory} (a v : Nat) (h : memoryWf m = true) :
    memoryWf (storeItem cfg m a v) = true := by
  unfold storeItem
  split
  · exact memoryWf_writeCell _ _ h
  · exact h

theorem memoryWf_storeItems (cfg : Config) : ∀ (cs : List Cell) {m : Memory}, memoryWf m = true →
    memoryWf (storeItems cfg m cs) = true
  | [], _, h => h
  | (a, v) :: rest, _, h => memoryWf_storeItems cfg rest (memoryWf_storeItem cfg a v h)

theorem memoryWf_edgeAccess (cfg : Config) (o : Outputs) {m : Memory} (h : memoryWf m = true) :
    memoryWf (edgeAccess cfg o m) = true := by
  have hw : memoryWf (if o.pWriteEnable then storeItem cfg m o.pAddr o.pWriteData else m) = true := by
    split
    · exact memoryWf_storeItem cfg _ _ h
    · exact h
  unfold edgeAccess
  dsimp only
  split
  · exact memoryWf_storeItems cfg _ hw
  · exact hw

/-- Every change of an edge keeps the canonical form. -/
theorem memoryWf_edgeLocations (cfg : Config) (ev : Event) (o : Outputs) {m : Memory} (h : memoryWf m = true) :
    memoryWf (edgeLocations cfg ev o m) = true := by
  unfold edgeLocations
  split
  · exact memoryWf_edgeAccess cfg o (memoryWf_storeItems cfg _ h)
  · exact memoryWf_storeItems cfg _ (memoryWf_edgeAccess cfg o h)

theorem readCell_storeItem_of_ne (cfg : Config) (m : Memory) {a c : Nat} (v : Nat) (h : c ≠ a) :
    readCell (storeItem cfg m a v) c = readCell m c := by
  unfold storeItem
  split
  · exact readCell_writeCell_of_ne m _ h
  · rfl

theorem readCell_storeItem_self (cfg : Config) {m : Memory} {a : Nat} (v : Nat) (hm : memoryWf m = true)
    (ha : a < cfg.locations) : readCell (storeItem cfg m a v) a = trunc cfg.layout.data.width v := by
  rw [storeItem, if_pos ha, readCell_writeCell_self a _ hm]

/-- Items written elsewhere leave a location alone. -/
theorem readCell_storeItems_of_ne (cfg : Config) : ∀ (cs : List Cell) (m : Memory) {a : Nat},
    (∀ c ∈ cs, c.1 ≠ a) → readCell (storeItems cfg m cs) a = readCell m a
  | [], _, _, _ => rfl
  | (b, v) :: rest, m, a, h => by
    rw [storeItems, readCell_storeItems_of_ne cfg rest _ fun c hc => h c (by simp [hc]),
      readCell_storeItem_of_ne cfg m v (by have := h (b, v) (by simp); exact fun e => this e.symm)]

/-- An item stored makes the same of a location in two canonical register files that agree there. -/
theorem readCell_storeItem_congr (cfg : Config) {m m' : Memory} {a : Nat} (b v : Nat)
    (h : readCell m' a = readCell m a) (hm : memoryWf m = true) (hm' : memoryWf m' = true) :
    readCell (storeItem cfg m' b v) a = readCell (storeItem cfg m b v) a := by
  by_cases hb : a = b
  · subst hb
    by_cases hl : a < cfg.locations
    · rw [readCell_storeItem_self cfg v hm hl, readCell_storeItem_self cfg v hm' hl]
    · simp [storeItem, hl, h]
  · rw [readCell_storeItem_of_ne cfg m' v hb, readCell_storeItem_of_ne cfg m v hb, h]

theorem readCell_storeItems_congr (cfg : Config) {a : Nat} : ∀ (cs : List Cell) {m m' : Memory},
    readCell m' a = readCell m a → memoryWf m = true → memoryWf m' = true →
    readCell (storeItems cfg m' cs) a = readCell (storeItems cfg m cs) a
  | [], _, _, h, _, _ => h
  | (b, v) :: rest, _, _, h, hm, hm' =>
    readCell_storeItems_congr cfg rest (readCell_storeItem_congr cfg b v h hm hm') (memoryWf_storeItem _ _ _ hm)
      (memoryWf_storeItem _ _ _ hm')

/-- The core's access makes the same of a location in two canonical register files that agree there. -/
theorem readCell_edgeAccess_congr (cfg : Config) (o : Outputs) {m m' : Memory} {a : Nat}
    (h : readCell m' a = readCell m a) (hm : memoryWf m = true) (hm' : memoryWf m' = true) :
    readCell (edgeAccess cfg o m') a = readCell (edgeAccess cfg o m) a := by
  unfold edgeAccess
  dsimp only
  split <;> split
  · exact readCell_storeItems_congr cfg _ (readCell_storeItem_congr cfg _ _ h hm hm')
      (memoryWf_storeItem _ _ _ hm) (memoryWf_storeItem _ _ _ hm')
  · exact readCell_storeItems_congr cfg _ h hm hm'
  · exact readCell_storeItem_congr cfg _ _ h hm hm'
  · exact h

/-- A location left alone in a cycle is none of the peripheral's own changes, clocked or not. -/
theorem LeavesAlone.ownChanges_ne {s : State} {a : Nat} (h : LeavesAlone s a) (clocked : Bool) :
    ∀ c ∈ ownChanges (currentEvent s) clocked, c.1 ≠ a := by
  intro c hc
  refine h c ?_
  unfold ownChanges at hc
  cases clocked <;> simp_all

/-- A location the peripheral leaves alone is, after the edge, what the core's access makes of it, in either order. -/
theorem readCell_edgeLocations {s : State} {o : Outputs} {a : Nat} (hm : memoryWf s.peripheral.locations = true)
    (h : LeavesAlone s a) :
    readCell (edgeLocations s.cfg (currentEvent s) o s.peripheral.locations) a =
      readCell (edgeAccess s.cfg o s.peripheral.locations) a := by
  unfold edgeLocations
  split
  · exact readCell_edgeAccess_congr _ _ (readCell_storeItems_of_ne _ _ _ (h.ownChanges_ne _)) hm
      (memoryWf_storeItems _ _ hm)
  · exact readCell_storeItems_of_ne _ _ _ (h.ownChanges_ne _)

/-- A location that neither the peripheral's own changes nor the core's access touches reads as before, whatever the
form of the register file. -/
theorem readCell_edgeLocations_of_untouched {s : State} {o : Outputs} {a : Nat} (h : LeavesAlone s a)
    (hacc : ∀ m, readCell (edgeAccess s.cfg o m) a = readCell m a) :
    readCell (edgeLocations s.cfg (currentEvent s) o s.peripheral.locations) a = readCell s.peripheral.locations a := by
  unfold edgeLocations
  split
  · rw [hacc, readCell_storeItems_of_ne _ _ _ (h.ownChanges_ne _)]
  · rw [readCell_storeItems_of_ne _ _ _ (h.ownChanges_ne _), hacc]

theorem edgeAccess_of_no_strobe (cfg : Config) {o : Outputs} (hw : o.pWriteEnable = false) (hr : o.pReset = false)
    (m : Memory) : edgeAccess cfg o m = m := by
  simp [edgeAccess, hw, hr]

/-- At an edge without a strobe the read looks at what the edge leaves, whatever the timing and the order of changes. -/
theorem latchedLocations_of_no_strobe (cfg : Config) (ev : Event) {o : Outputs} (hw : o.pWriteEnable = false)
    (hr : o.pReset = false) (m : Memory) : latchedLocations cfg ev o m = edgeLocations cfg ev o m := by
  cases h : cfg.readTiming <;> simp [latchedLocations, edgeLocations, edgeAccess_of_no_strobe cfg hw hr, h]

/-- A read before the core's access sees the old item of a location that the peripheral leaves alone. -/
theorem readCell_latchedLocations_before {s : State} {o : Outputs} {a : Nat} (ht : s.cfg.readTiming = .beforeAccess)
    (h : LeavesAlone s a) :
    readCell (latchedLocations s.cfg (currentEvent s) o s.peripheral.locations) a =
      readCell s.peripheral.locations a := by
  rw [latchedLocations, ht]
  exact readCell_storeItems_of_ne _ _ _ (h.ownChanges_ne _)

/-- What the peripheral's reset sets, region by region. -/
theorem mem_resetCells (cfg : Config) (c : Cell) :
    c ∈ resetCells cfg ↔ ∃ r ∈ cfg.resetRegions, r.base ≤ c.1 ∧ c.1 < r.base + r.size ∧ c.2 = r.value := by
  simp only [resetCells, regionCells, List.mem_flatMap, List.mem_map, List.mem_range]
  constructor
  · rintro ⟨r, hr, k, hk, rfl⟩
    exact ⟨r, hr, by simp, by simpa using hk, rfl⟩
  · rintro ⟨r, hr, h1, h2, h3⟩
    exact ⟨r, hr, c.1 - r.base, by omega, by ext <;> simp [h3]; omega⟩

/-- Cells that agree on the item of a location leave it that item, if one of them is there or it was there before. -/
theorem readCell_storeItems_const (cfg : Config) {b x : Nat} (hb : b < cfg.locations) :
    ∀ (cs : List Cell) (m : Memory), memoryWf m = true → (∀ c ∈ cs, c.1 = b → c.2 = x) →
      ((∃ c ∈ cs, c.1 = b) ∨ readCell m b = trunc cfg.layout.data.width x) →
      readCell (storeItems cfg m cs) b = trunc cfg.layout.data.width x
  | [], _, _, _, h => by simpa [storeItems] using h
  | (c, v) :: cs, m, hm, hv, h => by
    refine readCell_storeItems_const cfg hb cs _ (memoryWf_storeItem _ _ _ hm) (fun c hc => hv c (by simp [hc])) ?_
    by_cases hcb : c = b
    · subst hcb
      rw [readCell_storeItem_self _ _ hm hb, show v = x from hv (c, v) (by simp) rfl]
      exact .inr rfl
    · rcases h with ⟨c', hc', he⟩ | h
      · rcases List.mem_cons.1 hc' with rfl | hc'
        · exact absurd he hcb
        · exact .inl ⟨c', hc', he⟩
      · exact .inr (by rw [readCell_storeItem_of_ne _ _ _ (Ne.symm hcb), h])

theorem cellsInRange_cons (cfg : Config) (c : Cell) (m : Memory) :
    cellsInRange cfg (c :: m) = true ↔
      (c.1 < cfg.locations ∧ c.2 < 2 ^ cfg.layout.data.width) ∧ cellsInRange cfg m = true := by
  simp [cellsInRange]

theorem cellsInRange_writeCell (cfg : Config) : ∀ {m : Memory} {a v : Nat}, cellsInRange cfg m = true →
    a < cfg.locations → v < 2 ^ cfg.layout.data.width → cellsInRange cfg (writeCell m a v) = true
  | [], a, v, _, ha, hv => by
    simp only [writeCell]; split <;> simp [cellsInRange, ha, hv]
  | (b, w) :: rest, a, v, h, ha, hv => by
    obtain ⟨hb, hrest⟩ := (cellsInRange_cons cfg _ _).1 h
    simp only [writeCell]
    split
    · split
      · exact h
      · exact (cellsInRange_cons cfg _ _).2 ⟨⟨ha, hv⟩, h⟩
    · split
      · split
        · exact hrest
        · exact (cellsInRange_cons cfg _ _).2 ⟨⟨ha, hv⟩, hrest⟩
      · exact (cellsInRange_cons cfg _ _).2 ⟨hb, cellsInRange_writeCell cfg hrest ha hv⟩

theorem cellsInRange_storeItem (cfg : Config) {m : Memory} (a v : Nat) (h : cellsInRange cfg m = true) :
    cellsInRange cfg (storeItem cfg m a v) = true := by
  unfold storeItem
  split
  · exact cellsInRange_writeCell cfg h ‹_› (Nat.mod_lt _ (by positivity))
  · exact h

theorem cellsInRange_storeItems (cfg : Config) : ∀ (cs : List Cell) {m : Memory}, cellsInRange cfg m = true →
    cellsInRange cfg (storeItems cfg m cs) = true
  | [], _, h => h
  | (a, v) :: rest, _, h => cellsInRange_storeItems cfg rest (cellsInRange_storeItem cfg a v h)

theorem cellsInRange_edgeAccess (cfg : Config) (o : Outputs) {m : Memory} (h : cellsInRange cfg m = true) :
    cellsInRange cfg (edgeAccess cfg o m) = true := by
  have hw : cellsInRange cfg (if o.pWriteEnable then storeItem cfg m o.pAddr o.pWriteData else m) = true := by
    split
    · exact cellsInRange_storeItem cfg _ _ h
    · exact h
  unfold edgeAccess
  dsimp only
  split
  · exact cellsInRange_storeItems cfg _ hw
  · exact hw

/-- Every change of an edge stays on the peripheral's locations and within their width. -/
theorem cellsInRange_edgeLocations (cfg : Config) (ev : Event) (o : Outputs) {m : Memory}
    (h : cellsInRange cfg m = true) : cellsInRange cfg (edgeLocations cfg ev o m) = true := by
  unfold edgeLocations
  split
  · exact cellsInRange_edgeAccess cfg o (cellsInRange_storeItems cfg _ h)
  · exact cellsInRange_storeItems cfg _ (cellsInRange_edgeAccess cfg o h)

theorem cellsInRange_latchedLocations (cfg : Config) (ev : Event) (o : Outputs) {m : Memory}
    (h : cellsInRange cfg m = true) : cellsInRange cfg (latchedLocations cfg ev o m) = true := by
  unfold latchedLocations
  split
  · exact cellsInRange_storeItems cfg _ h
  · exact cellsInRange_edgeLocations cfg ev o h

/-- A register file in range reads as an item of `W_DATA` bits everywhere. -/
theorem readCell_lt (cfg : Config) : ∀ {m : Memory} (a : Nat), cellsInRange cfg m = true →
    readCell m a < 2 ^ cfg.layout.data.width
  | [], _, _ => by simp [unlistedItem]
  | (b, w) :: rest, a, h => by
    obtain ⟨hb, hrest⟩ := (cellsInRange_cons cfg _ _).1 h
    rw [readCell]
    split
    · exact hb.2
    · exact readCell_lt cfg a hrest

end Sys2Proof.Machine
end

