-- ==== Sys2Proof/Laws/State.lean ====
section
/-!
SUPPORT. What a cycle can do, said once: one lemma per field of the state after the edge, the one case split of
`runCommand`, and `exec` and `step` as that one operation.
-/

namespace Sys2Proof.Machine

/-! ### One lemma per field of the state after the edge -/

section
variable (s : State) (d : Decoded) (e : CommandEffect)

@[simp] theorem clockEdge_cfg : (clockEdge s d e).cfg = s.cfg := rfl

@[simp] theorem clockEdge_core : (clockEdge s d e).core = edgeCore s d e := rfl

@[simp] theorem clockEdge_rx :
    (clockEdge s d e).rx = edgeRx s.cfg (currentEvent s) (outputsOf s d e) s.rx := rfl

@[simp] theorem clockEdge_tx : (clockEdge s d e).tx = edgeTx (currentEvent s) (outputsOf s d e) s.tx := rfl

@[simp] theorem clockEdge_peripheral :
    (clockEdge s d e).peripheral =
      edgePeripheral s.cfg (currentEvent s) (outputsOf s d e) s.cycle s.peripheral := rfl

@[simp] theorem clockEdge_events : (clockEdge s d e).events = s.events.tail := rfl

@[simp] theorem clockEdge_cycle : (clockEdge s d e).cycle = s.cycle + 1 := rfl

@[simp] theorem clockEdge_last :
    (clockEdge s d e).last = some ⟨inputsOf s, outputsOf s d e, losesResponse s⟩ := rfl

@[simp] theorem outputsOf_rxDequeue : (outputsOf s d e).rxDequeue = accept s := rfl

@[simp] theorem outputsOf_pAddr : (outputsOf s d e).pAddr = d.address := rfl

@[simp] theorem outputsOf_pWriteData : (outputsOf s d e).pWriteData = d.data := rfl

@[simp] theorem outputsOf_pWriteEnable : (outputsOf s d e).pWriteEnable = (accept s && e.writeEnable) := rfl

@[simp] theorem outputsOf_pReset : (outputsOf s d e).pReset = (accept s && e.periphReset) := rfl

@[simp] theorem outputsOf_pClockEnable : (outputsOf s d e).pClockEnable = clockEnable (effectiveCore s).cc := rfl

@[simp] theorem outputsOf_txEnqueue : (outputsOf s d e).txEnqueue = txEnqueue s := rfl

@[simp] theorem outputsOf_txData : (outputsOf s d e).txData = responseWord s := rfl

end

/-! ### The reset line -/

theorem resetHigh_eq_false {s : State} (h : (currentEvent s).rst = .low) : resetHigh s = false := by
  simp [resetHigh, h]

theorem resetHigh_eq_true {s : State} (h : (currentEvent s).rst = .high) : resetHigh s = true := by
  simp [resetHigh, h]

theorem effectiveCore_of_low {s : State} (h : (currentEvent s).rst = .low) : effectiveCore s = s.core := by
  simp [effectiveCore, resetHigh_eq_false h]

theorem effectiveCore_of_high {s : State} (h : (currentEvent s).rst = .high) :
    effectiveCore s = CoreState.reset := by
  simp [effectiveCore, resetHigh_eq_true h]

theorem edgeCore_of_low {s : State} (h : (currentEvent s).rst = .low) (d : Decoded) (e : CommandEffect) :
    edgeCore s d e = ⟨nextPipe s d e, nextCc s d e⟩ := by
  simp [edgeCore, resetHigh_eq_false h]

theorem edgeCore_of_high {s : State} (h : (currentEvent s).rst = .high) (d : Decoded) (e : CommandEffect) :
    edgeCore s d e = CoreState.reset := by
  simp [edgeCore, resetHigh_eq_true h]

theorem RunsFree.whole {s : State} (h : RunsFree s) : WholeCycle s := ⟨h.1, by simp [h.2]⟩

theorem accept_of_takesCommand {s : State} (h : TakesCommand s) : accept s = true := by
  obtain ⟨⟨-, hlow⟩, hrx, hfull⟩ := h
  simp [accept, exAllowed, rxEmpty, resetHigh_eq_false hlow, hrx, hfull]

/-! ### `runCommand` and what calls it -/

theorem runCommand_of_whole {s : State} (h : WholeCycle s) (d : Decoded) (e : CommandEffect) :
    runCommand d e s = .next (clockEdge s d e) := by
  unfold runCommand
  rw [if_pos h.1]
  split
  · exact absurd ‹_› h.2
  · rfl
  · rfl

/-- All that `runCommand` can answer with a next state. -/
theorem runCommand_eq_next {s t : State} {d : Decoded} {e : CommandEffect} :
    runCommand d e s = .next t ↔ WholeCycle s ∧ t = clockEdge s d e := by
  constructor
  · intro h
    have hw : WholeCycle s := by
      unfold runCommand at h
      split at h
      · refine ⟨‹_›, fun hm => ?_⟩
        rw [hm] at h
        cases h
      · cases h
    rw [runCommand_of_whole hw] at h
    cases h
    exact ⟨hw, rfl⟩
  · rintro ⟨hw, rfl⟩
    exact runCommand_of_whole hw d e

/-- What a command does in its EX cycle (40_command_control.md rules R104, R105). -/
def effectOf (i : Instr) : CommandEffect :=
  match i with
  | .write _ _ _ => { writeEnable := true }
  | .reset _ _ _ => { periphReset := true }
  | .read _ _ _ | .step _ _ _ | .start _ _ _ | .pause _ _ _ | .status _ _ _ | .nop _ _ _ _ =>
    { trigger := commandTrigger i }

/-- Every meaning is the one shared cycle, with the command's own fields and effect. -/
theorem exec_eq_runCommand (i : Instr) (s : State) :
    exec i s = runCommand (fieldsOf s.cfg.opcodes i) (effectOf i) s := by
  cases i <;> rfl

theorem exec_of_whole {s : State} (h : WholeCycle s) (i : Instr) :
    exec i s = .next (clockEdge s (fieldsOf s.cfg.opcodes i) (effectOf i)) := by
  rw [exec_eq_runCommand, runCommand_of_whole h]

theorem exec_eq_next {i : Instr} {s t : State} :
    exec i s = .next t ↔ WholeCycle s ∧ t = clockEdge s (fieldsOf s.cfg.opcodes i) (effectOf i) := by
  rw [exec_eq_runCommand, runCommand_eq_next]

/-- The fields the core sees in a cycle: those of `rxData`. -/
def headFields (s : State) : Decoded := decodeFields s.cfg.layout (rxData s)

/-- The effect of the command at the head; none while the receive queue is empty. -/
def headEffect (s : State) : CommandEffect :=
  match fetchWord s with
  | some w => effectOf (decodeWord s.cfg w)
  | none => {}

/-- Every step is the one shared cycle, on the fields of the head word. -/
theorem step_eq_runCommand (s : State) : step s = runCommand (headFields s) (headEffect s) s := by
  unfold step headFields headEffect
  cases h : s.rx with
  | nil => simp [fetchWord, h, idleCycle]
  | cons w rest =>
    simp only [fetchWord, h, List.head?_cons]
    rw [exec_eq_runCommand, fieldsOf_decodeWord]
    simp [rxData, h]

theorem step_of_whole {s : State} (h : WholeCycle s) : step s = .next (clockEdge s (headFields s) (headEffect s)) := by
  rw [step_eq_runCommand, runCommand_of_whole h]

/-- All that a step can answer with a next state. -/
theorem step_eq_next {s t : State} :
    step s = .next t ↔ WholeCycle s ∧ t = clockEdge s (headFields s) (headEffect s) := by
  rw [step_eq_runCommand, runCommand_eq_next]

end Sys2Proof.Machine
end

