-- ==== Sys2Proof/Laws/Cycle.lean ====
section
/-!
SUPPORT. What one cycle does to the core: acceptance, the trigger and the strobes of the head command, the next
cycle-control state and pipeline register, and the response.
-/

namespace Sys2Proof.Machine

theorem WholeCycle.low_or_high {s : State} (h : WholeCycle s) :
    (currentEvent s).rst = .low ∨ (currentEvent s).rst = .high := by
  have := h.2
  cases hr : (currentEvent s).rst <;> simp_all

theorem TakesCommand.whole {s : State} (h : TakesCommand s) : WholeCycle s := RunsFree.whole h.1

theorem accept_eq_false {s : State} (h : s.rx = [] ∨ txFull s = true) : accept s = false := by
  rcases h with h | h <;> simp [accept, rxEmpty, h]

/-! ### The command at the head -/

/-- With a word at the head of the queue, the fields and the effect of the cycle are those of the word. -/
theorem head_of_rx {s : State} {w : Word} {rest : List Word} (h : s.rx = w :: rest) :
    headFields s = decodeFields s.cfg.layout w ∧ headEffect s = effectOf (decodeWord s.cfg w) := by
  simp [headFields, rxData, headEffect, fetchWord, h]

theorem effectOf_trigger (i : Instr) : (effectOf i).trigger = commandTrigger i := by cases i <;> rfl

/-- The strobes and the trigger of a word, by the class of its opcode. -/
theorem effectOf_decodeWord (cfg : Config) (w : Word) :
    (effectOf (decodeWord cfg w)).writeEnable =
        (classOf cfg.opcodes (decodeFields cfg.layout w).opcode == .write) ∧
      (effectOf (decodeWord cfg w)).periphReset =
        (classOf cfg.opcodes (decodeFields cfg.layout w).opcode == .reset) ∧
      (effectOf (decodeWord cfg w)).trigger =
        match classOf cfg.opcodes (decodeFields cfg.layout w).opcode with
        | .step => .step
        | .start => .start
        | .pause => .pause
        | .read | .write | .reset | .status | .nop => .none := by
  unfold decodeWord commandOf
  split <;> rename_i h <;> rw [h] <;> simp [effectOf, commandTrigger]

/-- The strobes and the trigger of an accepted cycle, by the class of the head word's opcode. -/
theorem headEffect_of_accept {s : State} (ha : accept s = true) :
    (headEffect s).writeEnable = (classOf s.cfg.opcodes (headFields s).opcode == .write) ∧
      (headEffect s).periphReset = (classOf s.cfg.opcodes (headFields s).opcode == .reset) ∧
      (headEffect s).trigger =
        match classOf s.cfg.opcodes (headFields s).opcode with
        | .step => .step
        | .start => .start
        | .pause => .pause
        | .read | .write | .reset | .status | .nop => .none := by
  cases h : s.rx with
  | nil => simp [accept, rxEmpty, h] at ha
  | cons w rest =>
    rw [(head_of_rx h).1, (head_of_rx h).2]
    exact effectOf_decodeWord _ _

/-- A cycle in which none of the triggers `ts` can be accepted raises none of them. -/
theorem NoTrigger.gatedTrigger {s : State} {ts : List Trigger} (h : NoTrigger ts s) :
    gatedTrigger s (headEffect s) = .none ∨ gatedTrigger s (headEffect s) ∉ ts := by
  unfold Machine.gatedTrigger
  split
  · rename_i ha
    cases hr : s.rx with
    | nil => simp [accept, rxEmpty, hr] at ha
    | cons w rest =>
      have hf : fetchWord s = some w := by simp [fetchWord, hr]
      right
      rw [(head_of_rx hr).2, effectOf_trigger]
      exact h w hf ha
  · exact .inl rfl

/-- The step operand of a decoded word is its value field. -/
theorem stepOperand_headFields (s : State) : stepOperand s.cfg.layout (headFields s) = (headFields s).value :=
  trunc_eq_self (sliceBits_lt _ _)

/-! ### Cycle Control -/

@[simp] theorem ccNext_none (cfg : Config) (cc : CycleControl) (n : Nat) : ccNext cfg cc .none n = countDown cc := by
  cases h : cc.mode <;> simp [ccNext]

/-- A command without a trigger leaves `cc` to counting. -/
theorem nextCc_of_no_trigger {s : State} (hl : (currentEvent s).rst = .low) {i : Instr}
    (h : commandTrigger i = .none) (d : Decoded) : nextCc s d (effectOf i) = countDown s.core.cc := by
  simp [nextCc, gatedTrigger, effectOf_trigger, h, effectiveCore_of_low hl]

/-! ### An accepted command -/

/-- The core after the edge of an accepted command. -/
theorem edgeCore_of_takesCommand {s : State} (h : TakesCommand s) (d : Decoded) (e : CommandEffect) :
    edgeCore s d e =
      (let cc := ccNext s.cfg s.core.cc e.trigger (trunc s.cfg.layout.value.width d.value)
       ⟨⟨false, d.opcode, d.address, cc.remainingSteps⟩, cc⟩) := by
  simp [edgeCore_of_low h.1.2, nextPipe, nextCc, nopFlag, gatedTrigger, accept_of_takesCommand h,
    effectiveCore_of_low h.1.2, stepOperand, addressOperand]

/-- What the cycle of an accepted command shows. -/
theorem last_of_takesCommand {s : State} (h : TakesCommand s) (d : Decoded) (e : CommandEffect) :
    (clockEdge s d e).last = some ⟨inputsOf s,
      ⟨true, d.address, d.data, e.writeEnable, e.periphReset, clockEnable s.core.cc, txEnqueue s, responseWord s⟩,
      losesResponse s⟩ := by
  simp [outputsOf, accept_of_takesCommand h, addressOperand, dataOperand, effectiveCore_of_low h.1.2]

/-- An accepted command leaves the queue: the next word moves to the head. -/
theorem rx_of_takesCommand {s : State} {w : Word} {rest : List Word} (hrx : s.rx = w :: rest) (h : TakesCommand s)
    (d : Decoded) (e : CommandEffect) : ∃ added, (clockEdge s d e).rx = rest ++ added := by
  simp only [clockEdge_rx, edgeRx, outputsOf_rxDequeue, accept_of_takesCommand h, if_true, hrx, List.tail_cons]
  exact ⟨_, rfl⟩

/-! ### The read-data line -/

/-- Under P_RD the line takes the addressed location from the register file as the read looks at it. -/
theorem readData_of_prd {s : State} (hp : PRD s) {d : Decoded} (e : CommandEffect) (ha : d.address < s.cfg.locations) :
    (clockEdge s d e).peripheral.readData =
      readCell (latchedLocations s.cfg (currentEvent s) (outputsOf s d e) s.peripheral.locations) d.address := by
  have hp' : (currentEvent s).readData = none := hp
  simp [edgePeripheral, edgeReadData, hp', ha]

/-- In a cycle without a strobe that is the content after the edge (20_memory.md rule R44). -/
theorem readData_of_no_strobe {s : State} (hp : PRD s) {d : Decoded} {e : CommandEffect}
    (ha : d.address < s.cfg.locations) (hw : (outputsOf s d e).pWriteEnable = false)
    (hr : (outputsOf s d e).pReset = false) :
    (clockEdge s d e).peripheral.readData = readCell (clockEdge s d e).peripheral.locations d.address := by
  rw [readData_of_prd hp e ha, latchedLocations_of_no_strobe _ _ hw hr]
  rfl

/-! ### The response -/

/-- A cycle without reset composes its response from the stored core state. -/
theorem responseWord_of_low {t : State} (h : (currentEvent t).rst = .low) {cfg : Config} (hcfg : t.cfg = cfg)
    {c : CommandClass} (hc : classOf cfg.opcodes t.core.pipe.opcode = c) :
    responseWord t = encodeFields cfg.layout
      ⟨t.core.pipe.opcode, responseAddress c t.core.pipe t.cycle,
        responseData c t.core.cc t.peripheral.readData t.cycle, responseValue c t.core.pipe t.cycle⟩ := by
  subst hcfg hc
  simp only [responseWord, effectiveCore_of_low h]

theorem txEnqueue_of_nop {t : State} (h : t.core.pipe.nop = true) : txEnqueue t = false := by
  unfold txEnqueue effectiveCore
  split <;> simp [CoreState.reset, h]

theorem edgeCore_nop_of_not_accept {s : State} (h : accept s = false) (d : Decoded) (e : CommandEffect) :
    (edgeCore s d e).pipe.nop = true := by
  unfold edgeCore
  split <;> simp [CoreState.reset, nextPipe, nopFlag, h]

/-- A state whose pipeline register holds a command answers it in the next cycle without reset. -/
theorem answersNext_of {t : State} {P : Nat → Word → Prop} (hn : t.core.pipe.nop = false)
    (hP : RunsFree t → P t.peripheral.readData (responseWord t)) : AnswersNext t P := by
  intro h
  have e : effectiveCore t = t.core := effectiveCore_of_low h.2
  refine ⟨_, _, step_of_whole (RunsFree.whole h), rfl, ?_, hP h, ?_⟩
  · simp [txEnqueue, e, hn, inputsOf]
  · simp only [clockEdge_tx, edgeTx, outputsOf_txEnqueue, outputsOf_txData, txEnqueue, e, hn, inputsOf]
    split <;> simp_all

end Sys2Proof.Machine
end

