-- ==== Sys2Proof/Laws/PerInstr.lean ====
section
/-!
SUPPORT. A fact about every command as syntax, one lemma per constructor: its word is a `W`-bit word (30_encoding.md
rule R60, rule R64).
-/

namespace Sys2Proof.Laws.WordWidth

/-- Under every well-formed configuration the command's word has no bit above the word width. -/
def Statement (i : Instr) : Prop := ∀ cfg : Config, cfg.wf = true → encode cfg i < 2 ^ cfg.layout.wordWidth

theorem encode_lt (i : Instr) : Statement i := fun _ h => encodeFields_lt (Config.layout_wf h) _

theorem read (address data value : Nat) : Statement (.read address data value) := encode_lt _

theorem write (address data value : Nat) : Statement (.write address data value) := encode_lt _

theorem reset (address data value : Nat) : Statement (.reset address data value) := encode_lt _

theorem step (address data value : Nat) : Statement (.step address data value) := encode_lt _

theorem start (address data value : Nat) : Statement (.start address data value) := encode_lt _

theorem pause (address data value : Nat) : Statement (.pause address data value) := encode_lt _

theorem status (address data value : Nat) : Statement (.status address data value) := encode_lt _

theorem nop (opcode address data value : Nat) : Statement (.nop opcode address data value) := encode_lt _

end Sys2Proof.Laws.WordWidth
end

