-- ==== Sys2Proof/Tests/Slice0.lean ====
section
/-!
SUPPORT. Small tests and witnesses. Expected results are those of 95_test_vectors.md (reference configuration) or are
worked out by hand from the rule named; fields that 42_response_compose.md rule R162 leaves free are not tested. Each
statement with hypotheses has a witness here: a state and operands that meet them all.
-/

namespace Sys2Proof.Tests
open Sys2Proof.Machine

/-! ### Helpers -/

/-- A fact about the next state, where there is one. -/
def nextIs (o : Host.Outcome State Fault Refusal) (p : State → Bool) : Bool :=
  match o with
  | .next t => p t
  | .fault _ => false
  | .refused _ => false

def refusedWith (o : Host.Outcome State Fault Refusal) (r : Refusal) : Bool :=
  match o with
  | .refused q => q == r
  | .next _ => false
  | .fault _ => false

/-- A fact about what a cycle showed. -/
def showed (t : State) (p : Observation → Bool) : Bool := t.last.any p

/-- The machine after reset with these words in the receive queue. -/
def withWords (ws : List Word) : State := { State.reset with rx := ws }

/-- The same with cycle-control state `cc`. -/
def withCc (ws : List Word) (cc : CycleControl) : State :=
  { withWords ws with core := { CoreState.reset with cc := cc } }

/-- The same in the RESPOND cycle of a command (95_test_vectors.md 2.5). -/
def responding (op : Nat) (cc : CycleControl) (count : Nat) : State :=
  { withWords [] with
    core := { pipe := ⟨false, op, 5, count⟩, cc := cc }
    peripheral := { locations := [], readData := 0x2A, clockedEdges := 0 } }

/-- A state with what the environment chooses in its cycles. -/
def withEvents (s : State) (evs : List Event) : State := { s with events := evs }

def rearmed (s : State) (r : StepRearm) : State := { s with cfg := { s.cfg with stepRearm := r } }

def gated (s : State) : State := { s with cfg := { s.cfg with exInReset := .gated } }

/-- The same with a peripheral of sixteen locations whose reset sets 4 to 11 to 9. -/
def smallPeripheral (s : State) : State :=
  { s with cfg := { s.cfg with locations := 16, resetRegions := [⟨4, 8, 9⟩] } }

def readsAfter (s : State) : State := { s with cfg := { s.cfg with readTiming := .afterEdge } }

def resetCycle : Event := { Event.quiet with rst := .high }

/-- A transmit queue of eight words: full in the reference environment. -/
def txFilled (s : State) : State := { s with tx := [1, 2, 3, 4, 5, 6, 7, 8] }

/-! ### Well-formedness: each check refuses a term that breaks it -/

def otherLayout : Layout := ⟨16, ⟨15, 12⟩, ⟨11, 8⟩, ⟨7, 4⟩, ⟨2, 0⟩⟩

theorem test_reference_wf : Config.reference.wf = true := by decide

theorem test_other_layout_wf : otherLayout.wf = true := by decide

theorem test_wf_refuses_overlap : ({ Layout.reference with value := ⟨12, 0⟩ } : Layout).wf = false := by decide

theorem test_wf_refuses_range_outside_word : ({ Layout.reference with opcode := ⟨32, 28⟩ } : Layout).wf = false := by
  decide

theorem test_wf_refuses_empty_range : ({ Layout.reference with data := ⟨11, 12⟩ } : Layout).wf = false := by decide

theorem test_wf_refuses_two_bit_opcode : ({ Layout.reference with opcode := ⟨31, 30⟩ } : Layout).wf = false := by
  decide

theorem test_wf_refuses_shared_opcode : ({ Opcodes.reference with status := 1 } : Opcodes).wf 4 = false := by decide

theorem test_wf_refuses_wide_opcode : ({ Opcodes.reference with status := 16 } : Opcodes).wf 4 = false := by decide

theorem test_wf_refuses_too_many_locations : ({ Config.reference with locations := 257 } : Config).wf = false := by
  decide

theorem test_wf_refuses_wide_address : Instr.wf Config.reference (.read 256 0 0) = false := by decide

theorem test_wf_refuses_wide_data : Instr.wf Config.reference (.write 0 256 0) = false := by decide

theorem test_wf_refuses_wide_value : Instr.wf Config.reference (.step 0 0 4096) = false := by decide

theorem test_wf_refuses_recognized_nop : Instr.wf Config.reference (.nop 3 0 0 0) = false := by decide

theorem test_wf_accepts_top_operands : Instr.wf Config.reference (.step 255 255 4095) = true := by decide

/-! ### The codec: words written out bit by bit (00_scope.md rule R12: OP 31:28, ADDR 27:20, DATA 19:12, VAL 11:0) -/

theorem test_decode_read : decodeTableWord 32 0b0001_00000101_00101010_000000000011 = some (.read 5 0x2A 3) := by decide

theorem test_decode_write : decodeTableWord 32 0b0010_00000101_00101010_000000000000 = some (.write 5 0x2A 0) := by
  decide

theorem test_decode_reset : decodeTableWord 32 0b0011_00000111_00000000_000000000000 = some (.reset 7 0 0) := by decide

theorem test_decode_step : decodeTableWord 32 0b0100_00000000_00000000_111111111111 = some (.step 0 0 0xFFF) := by
  decide

theorem test_decode_start : decodeTableWord 32 0b0101_00000000_00000000_000000000000 = some (.start 0 0 0) := by decide

theorem test_decode_pause : decodeTableWord 32 0b0110_10000000_00000001_000000000000 = some (.pause 128 1 0) := by
  decide

theorem test_decode_status : decodeTableWord 32 0b0111_00000011_00000000_000000000001 = some (.status 3 0 1) := by
  decide

/-- 95_test_vectors.md CD-2. -/
theorem test_decode_unrecognized : decodeTableWord 32 0xF1234567 = some (.nop 15 0x12 0x34 0x567) := by decide

/-- 95_test_vectors.md CD-5. -/
theorem test_decode_zero_word : decodeTableWord 32 0 = some (.nop 0 0 0 0) := by decide

theorem test_decode_refuses_wider_than_word : decodeTableWord 40 0x100000000 = none := by decide

/-- 95_test_vectors.md CD-4: each field is truncated. -/
theorem test_encode_truncates : encodeFields Layout.reference ⟨0x1F, 0x1FF, 0x12A, 0x1003⟩ = 0xFFF2A003 := by decide

/-- 95_test_vectors.md CD-6: another layout, with an unused bit. -/
theorem test_unused_bit_written_zero :
    decodeFields otherLayout 0xFFFF = ⟨15, 15, 15, 7⟩ ∧
      encodeFields otherLayout (decodeFields otherLayout 0xFFFF) = 0xFFF7 := by decide

/-- 95_test_vectors.md CD-7. -/
theorem test_classes :
    (List.range 16).map (classOf Opcodes.reference) =
      [.nop, .read, .write, .reset, .step, .start, .pause, .status, .nop, .nop, .nop, .nop, .nop, .nop, .nop, .nop] := by
  decide

/-! ### One EX cycle of each command (95_test_vectors.md 2.3, 2.4) -/

theorem test_read :
    nextIs (step (withWords [0x1052A003])) (fun t => t.core.pipe == ⟨false, 1, 5, 0⟩ && t.rx == [] &&
      showed t fun ob => ob.outputs.pAddr == 5 && !ob.outputs.pWriteEnable && !ob.outputs.pReset) = true := by decide

/-- P_RD: the content after the READ's edge is on `readData` in the next cycle (20_memory.md rule R44). -/
theorem test_read_presents_the_location :
    nextIs (exec (.read 5 0 0) { withWords [0x10500000] with peripheral := ⟨[(5, 0x2A)], 0, 0⟩ })
      (fun t => t.peripheral.readData == 0x2A) = true := by decide

/-- 20_memory.md rule R56: the reference peripheral's read register takes the old item in a WRITE's or RESET's own
cycle, where a peripheral that reads after the edge has the new one. -/
theorem test_read_before_the_write :
    nextIs (step { withWords [0x2052A000] with peripheral := ⟨[(5, 7)], 0, 0⟩ })
      (fun t => t.peripheral == ⟨[(5, 0x2A)], 7, 0⟩) = true ∧
    nextIs (step (readsAfter { withWords [0x2052A000] with peripheral := ⟨[(5, 7)], 0, 0⟩ }))
      (fun t => t.peripheral == ⟨[(5, 0x2A)], 0x2A, 0⟩) = true := by decide

theorem test_read_before_the_reset :
    nextIs (step (smallPeripheral { withWords [0x30400000] with peripheral := ⟨[(4, 7)], 0, 0⟩ }))
      (fun t => t.peripheral.readData == 7) = true ∧
    nextIs (step (readsAfter (smallPeripheral { withWords [0x30400000] with peripheral := ⟨[(4, 7)], 0, 0⟩ })))
      (fun t => t.peripheral.readData == 9) = true := by decide

theorem test_write :
    nextIs (step (withWords [0x2052A003])) (fun t => t.core.pipe == ⟨false, 2, 5, 0⟩ &&
      t.peripheral.locations == [(5, 0x2A)] && showed t fun ob => ob.outputs.pWriteEnable && !ob.outputs.pReset) =
      true := by decide

/-- The last location the reference peripheral has, and a zero that removes the entry. -/
theorem test_write_zero_at_top :
    nextIs (exec (.write 255 0 0) { withWords [0x2FF00000] with peripheral := ⟨[(254, 1), (255, 7)], 0, 0⟩ })
      (fun t => t.peripheral.locations == [(254, 1)]) = true := by decide

/-- 95_test_vectors.md P5, on a smaller peripheral: its reset sets its own locations, and the core is not reset. -/
theorem test_reset_command :
    nextIs (step (smallPeripheral { withCc [0x30700000] ⟨.manual, 3⟩ with peripheral := ⟨[(3, 1), (7, 0x55)], 0, 0⟩ }))
      (fun t => t.core == ⟨⟨false, 3, 7, 2⟩, ⟨.manual, 2⟩⟩ &&
        t.peripheral.locations == [(3, 1), (4, 9), (5, 9), (6, 9), (7, 9), (8, 9), (9, 9), (10, 9), (11, 9)] &&
        showed t fun ob => ob.outputs.pReset && !ob.outputs.pWriteEnable) = true := by decide

theorem test_reset_command_in_autonomous :
    nextIs (exec (.reset 0 0 0) (withCc [0x30000000] ⟨.autonomous, 0⟩)) (fun t => t.core.cc == ⟨.autonomous, 0⟩) =
      true := by decide

theorem test_step_loads :
    nextIs (step (withWords [0x4052A003])) (fun t => t.core == ⟨⟨false, 4, 5, 3⟩, ⟨.manual, 3⟩⟩) = true := by decide

/-- 95_test_vectors.md 2.4: (MANUAL, 3) under the three policies, the last saturating. -/
theorem test_step_while_stepping :
    nextIs (step (withCc [0x40000007] ⟨.manual, 3⟩)) (fun t => t.core.cc == ⟨.manual, 7⟩) = true ∧
    nextIs (step (rearmed (withCc [0x40000007] ⟨.manual, 3⟩) .ignore)) (fun t => t.core.cc == ⟨.manual, 2⟩) = true ∧
    nextIs (step (rearmed (withCc [0x40000007] ⟨.manual, 3⟩) .extend)) (fun t => t.core.cc == ⟨.manual, 9⟩) = true ∧
    nextIs (step (rearmed (withCc [0x40000FFF] ⟨.manual, 3⟩) .extend)) (fun t => t.core.cc == ⟨.manual, 0xFFF⟩) =
      true := by decide

theorem test_start_while_stepping :
    nextIs (step (withCc [0x5052A003] ⟨.manual, 3⟩)) (fun t => t.core == ⟨⟨false, 5, 5, 0⟩, ⟨.autonomous, 0⟩⟩ &&
      showed t fun ob => ob.outputs.pClockEnable) = true := by decide

theorem test_step_ignored_in_autonomous :
    nextIs (exec (.step 0 0 7) (withCc [0x40000007] ⟨.autonomous, 0⟩)) (fun t => t.core.cc == ⟨.autonomous, 0⟩) =
      true := by decide

theorem test_pause_in_autonomous :
    nextIs (step (withCc [0x6052A003] ⟨.autonomous, 0⟩)) (fun t => t.core == ⟨⟨false, 6, 5, 0⟩, ⟨.manual, 0⟩⟩ &&
      showed t fun ob => ob.outputs.pClockEnable) = true := by decide

theorem test_pause_while_stepping :
    nextIs (step (withCc [0x60000000] ⟨.manual, 3⟩)) (fun t => t.core.cc == ⟨.manual, 2⟩) = true := by decide

theorem test_status_only_counts :
    nextIs (step (withCc [0x7052A003] ⟨.manual, 1⟩)) (fun t => t.core == ⟨⟨false, 7, 5, 0⟩, ⟨.manual, 0⟩⟩ &&
      t.peripheral.clockedEdges == 1) = true := by decide

theorem test_unrecognized_is_accepted :
    nextIs (step (withWords [0xC052A003])) (fun t => t.core.pipe == ⟨false, 12, 5, 0⟩ && t.rx == [] &&
      t.peripheral.locations == [] && showed t fun ob => ob.outputs.pAddr == 5 && ob.outputs.pWriteData == 0x2A) =
      true := by decide

/-! ### Acceptance, responses, reset (95_test_vectors.md 2.2, 2.5, P8) -/

theorem test_full_queue_holds_the_command :
    nextIs (step (txFilled (withWords [0x2052A003]))) (fun t => t.core.pipe == ⟨true, 2, 5, 0⟩ &&
      t.rx == [0x2052A003] && t.peripheral.locations == []) = true := by decide

/-- With an empty queue nothing is accepted; the payload is a free value and is not tested. -/
theorem test_idle_cycle_counts :
    nextIs (step (withCc [] ⟨.manual, 2⟩)) (fun t => t.core.pipe.nop && t.core.cc == ⟨.manual, 1⟩) = true := by decide

/-- A READ is answered with `readData`; its value field is free. -/
theorem test_read_response_data :
    ∃ x, responseWord (responding 1 ⟨.manual, 0⟩ 3) = encodeFields Layout.reference ⟨1, 5, 0x2A, x⟩ := ⟨_, rfl⟩

/-- A STEP is answered with the count; its data field is free. -/
theorem test_step_response :
    ∃ x, responseWord (responding 4 ⟨.manual, 3⟩ 3) = encodeFields Layout.reference ⟨4, 5, x, 3⟩ := ⟨_, rfl⟩

theorem test_status_response :
    nextIs (step (responding 7 ⟨.manual, 3⟩ 3)) (fun t => t.tx == [0x70500003]) = true ∧
    nextIs (step (responding 7 ⟨.autonomous, 0⟩ 0)) (fun t => t.tx == [0x70501000]) = true := by decide

/-- An unrecognized opcode is answered with itself; the other fields are free. -/
theorem test_unrecognized_response_echoes :
    ∃ x y z, responseWord (responding 12 ⟨.manual, 3⟩ 3) = encodeFields Layout.reference ⟨12, x, y, z⟩ :=
  ⟨_, _, _, rfl⟩

theorem test_response_lost :
    nextIs (step (txFilled (responding 1 ⟨.manual, 0⟩ 3))) (fun t => t.tx.length == 8 && t.core.pipe.nop &&
      showed t fun ob => ob.responseLost && !ob.outputs.txEnqueue) = true := by decide

/-- 95_test_vectors.md P8 at t = 2: READ dequeued, the state reset, no response. -/
theorem test_reset_line_active :
    nextIs (step (withEvents { responding 2 ⟨.manual, 3⟩ 3 with rx := [0x10300000] } [resetCycle]))
      (fun t => t.core == CoreState.reset && t.rx == [] && t.tx == [] &&
        showed t fun ob => !ob.outputs.pClockEnable) = true := by decide

/-- 95_test_vectors.md P8g at t = 2: READ stays queued. -/
theorem test_reset_line_gated :
    nextIs (step (gated (withEvents { responding 2 ⟨.manual, 3⟩ 3 with rx := [0x10300000] } [resetCycle])))
      (fun t => t.core == CoreState.reset && t.rx == [0x10300000]) = true := by decide

theorem test_mid_cycle_reset_refused :
    refusedWith (step (withEvents (withWords [0]) [{ Event.quiet with rst := .midCycle }])) .resetChangesMidCycle =
      true := by decide

theorem test_ill_formed_configuration_refused :
    refusedWith (step { withWords [0] with cfg := { Config.reference with locations := 257 } })
      .configurationNotWellFormed = true := by decide

/-- The experiment's own change and the core's WRITE of one location at one edge: the later of the two stays. -/
theorem test_write_race :
    nextIs (step (withEvents (withCc [0x2052A000] ⟨.autonomous, 0⟩) [{ Event.quiet with clockedWrites := [(5, 9)] }]))
      (fun t => t.peripheral.locations == [(5, 0x2A)]) = true ∧
    nextIs (step (withEvents (withCc [0x2052A000] ⟨.autonomous, 0⟩)
      [{ Event.quiet with clockedWrites := [(5, 9)], accessLast := false }]))
      (fun t => t.peripheral.locations == [(5, 9)]) = true := by decide

/-- The host side's words enter behind the head, and its removals and the append are both applied. -/
theorem test_queues_at_the_edge :
    nextIs (step (withEvents { responding 7 ⟨.manual, 3⟩ 3 with rx := [0x10000000], tx := [1, 2] }
      [{ Event.quiet with rxPush := [0x70000000], txPop := 1 }]))
      (fun t => t.rx == [0x70000000] && t.tx == [2, 0x70500003]) = true := by decide

/-! ### Witnesses: every statement with hypotheses has a state that meets them -/

theorem witness_whole_cycle : WholeCycle (withWords [0x1052A003]) := by decide

theorem witness_runs_free : RunsFree (withWords [0x1052A003]) := by decide

/-- `TakesCommand`, at the last free slot of the transmit queue, for the eight completion statements. -/
theorem witness_takes_command : TakesCommand { withWords [0x1052A003] with tx := [1, 2, 3, 4, 5, 6, 7] } := by decide

/-- The clauses of `ReadCompletes` and `WriteCompletes`, at the top location. -/
theorem witness_read_write_clauses :
    TakesCommand (withWords [0x1FF00000]) ∧ PRD (withWords [0x1FF00000]) ∧
    255 < (withWords [0x1FF00000]).cfg.locations ∧ memoryWf (withWords [0x1FF00000]).peripheral.locations = true ∧
    LeavesAlone (withWords [0x1FF00000]) 255 := by decide

/-- The reset clause of `ResetCommandCompletes`, at the top location and at 0. -/
theorem witness_reset_regions :
    (∃ r ∈ (withWords [0x30000000]).cfg.resetRegions, r.base ≤ 255 ∧ 255 < r.base + r.size) ∧
    (∃ r ∈ (withWords [0x30000000]).cfg.resetRegions, r.base ≤ 0 ∧ 0 < r.base + r.size) ∧
    (∀ r ∈ (withWords [0x30000000]).cfg.resetRegions, r.base ≤ 255 → 255 < r.base + r.size → r.value = 0) ∧
    LeavesAlone (withWords [0x30000000]) 255 := by decide

/-- `ImplicitNopCompletes`: the recognized values are 1 to 7, so 0 and 8 are on the border. -/
theorem witness_nop_opcode :
    0 ∉ (withWords [0]).cfg.opcodes.toList ∧ 8 ∉ (withWords [0]).cfg.opcodes.toList ∧ TakesCommand (withWords [0]) := by
  decide

/-- The clauses of `StepCommandCompletes`: idle, each policy while stepping (count 1 is the border), AUTONOMOUS. -/
theorem witness_step_clauses :
    TakesCommand (withCc [0x40000FFF] ⟨.manual, 0⟩) ∧ 0xFFF < 2 ^ (withWords []).cfg.layout.value.width ∧
    TakesCommand (withCc [0x40000FFF] ⟨.manual, 1⟩) ∧ (withCc [] ⟨.manual, 1⟩).cfg.stepRearm = .reload ∧
    TakesCommand (rearmed (withCc [0x40000FFF] ⟨.manual, 1⟩) .ignore) ∧
    TakesCommand (rearmed (withCc [0x40000FFF] ⟨.manual, 1⟩) .extend) ∧
    TakesCommand (withCc [0x40000FFF] ⟨.autonomous, 0⟩) := by decide

/-- The clauses of `PauseCommandCompletes`. -/
theorem witness_pause_clauses :
    TakesCommand (withCc [0x60000000] ⟨.autonomous, 0⟩) ∧ TakesCommand (withCc [0x60000000] ⟨.manual, 1⟩) := by decide

/-- `AnswersNext` is asked of a state that runs. -/
theorem witness_answers_next : RunsFree (responding 1 ⟨.manual, 0⟩ 3) := by decide

/-- `UnacceptedCycleDoesNothing`: an empty receive queue, and a full transmit queue with a command waiting. -/
theorem witness_unaccepted :
    (WholeCycle (withWords []) ∧ (withWords []).rx = []) ∧
    (WholeCycle (txFilled (withWords [0])) ∧ txFull (txFilled (withWords [0])) = true) := by decide

/-- `CountingMatchesClockedEdges`: count 1 is the border; with STATUS accepted, and with START waiting. -/
theorem witness_counting :
    (RunsFree (withCc [0x70000000] ⟨.manual, 1⟩) ∧ accept (withCc [0x70000000] ⟨.manual, 1⟩) = true ∧
      commandTrigger (.status 0 0 0) = .none) ∧
    (RunsFree (txFilled (withCc [0x50000000] ⟨.manual, 1⟩)) ∧
      accept (txFilled (withCc [0x50000000] ⟨.manual, 1⟩)) = false) := by decide

/-- A step from each mode, for the statements about `step s = .next t` (`ConfigurationNeverChanges`,
`AutonomousHoldsNoCount`, `CommandsWithoutStrobeKeepMemory`, `StepKeepsTheInvariant`). -/
theorem witness_step_next (cc : CycleControl) : ∃ t, step (withCc [0x70000000] cc) = .next t :=
  ⟨_, step_of_whole ⟨test_reference_wf, by simp [currentEvent, withCc, withWords, State.reset, Event.quiet]⟩⟩

theorem witness_no_step_trigger : NoTrigger [.step] (withCc [0x70000000] ⟨.autonomous, 0⟩) := by
  intro w hw _
  have : w = 0x70000000 := by simpa [fetchWord, withCc, withWords] using hw.symm
  subst this
  decide

/-- The three ways `RefusedOnlyOutsideTheCycleModel` splits. -/
theorem witness_refusal_clauses :
    ({ withWords [] with cfg := { Config.reference with locations := 257 } } : State).cfg.wf = false ∧
    (withWords []).cfg.wf = true ∧
    (currentEvent (withEvents (withWords []) [{ Event.quiet with rst := .midCycle }])).rst = .midCycle := by decide

/-- The frames: a strobed command accepted and one that waits, another location, a location in no region. -/
theorem witness_frames :
    (∃ t, exec (.write 5 0 0) (withWords [0x20500000]) = .next t) ∧ LeavesAlone (withWords [0x20500000]) 6 ∧
    (∃ t, exec (.reset 0 0 0) (txFilled (withWords [0x30000000])) = .next t) ∧
    accept (txFilled (withWords [0x30000000])) = false ∧
    (∀ r ∈ (withWords []).cfg.resetRegions, ¬(r.base ≤ 256 ∧ 256 < r.base + r.size)) ∧
    (∃ t, exec (.read 0 0 0) (withWords [0x10000000]) = .next t) :=
  ⟨⟨_, exec_of_whole (by decide) _⟩, by decide, ⟨_, exec_of_whole (by decide) _⟩, by decide, by decide,
    ⟨_, exec_of_whole (by decide) _⟩⟩

/-- `ClockedLogicHoldsWhenDisabled`: MANUAL idle, with an event listed. -/
theorem witness_clock_disabled :
    (withEvents (withWords []) [Event.quiet]).events = Event.quiet :: [] ∧
    clockEnable (effectiveCore (withEvents (withWords []) [Event.quiet])).cc = false := by decide

/-- The clauses of `ReadDataUnderPRD`: a READ's cycle under both timings, and a WRITE's under each. -/
theorem witness_prd :
    (WholeCycle (withWords [0x10500000]) ∧ PRD (withWords [0x10500000])) ∧
    (WholeCycle (readsAfter (withWords [0x2052A000])) ∧ PRD (readsAfter (withWords [0x2052A000]))) ∧
    (WholeCycle (withWords [0x2FF2A000]) ∧ (withWords []).cfg.readTiming = .beforeAccess ∧
      LeavesAlone (withWords [0x2FF2A000]) 255) := by decide

/-- `ReferencePeripheralEdge`: a state after reset with a location written and a WRITE at the head. -/
theorem witness_reference_peripheral :
    let s : State := { withWords [0x2052A000] with peripheral := ⟨[(5, 7)], 0, 0⟩ }
    WholeCycle s ∧ s.cfg.readTiming = .beforeAccess ∧ s.cfg.locations = 2 ^ s.cfg.layout.address.width ∧
      s.cfg.resetRegions = [⟨0, 2 ^ s.cfg.layout.address.width, 0⟩] ∧ memoryWf s.peripheral.locations = true ∧
      PRD s ∧ ∀ a, LeavesAlone s a :=
  ⟨by decide, rfl, rfl, rfl, rfl, rfl, fun _ _ h => nomatch h⟩

/-- `OneResponseOneCycleLater`, `ResponseLostExactlyWhen` and `StraddlingCommandGetsNoResponse`: two cycles in a row, the
second with the reset line low or high. -/
theorem witness_two_cycles (ev : Event) (h : ev.rst ≠ .midCycle) :
    ∃ t u, TakesCommand (withEvents (withWords [0x2052A000, 0x10500000]) [Event.quiet, ev]) ∧
      step (withEvents (withWords [0x2052A000, 0x10500000]) [Event.quiet, ev]) = .next t ∧
      (currentEvent t).rst = ev.rst ∧ step t = .next u := by
  have hq : WholeCycle (withEvents (withWords [0x2052A000, 0x10500000]) [Event.quiet, ev]) :=
    ⟨test_reference_wf, ResetLine.noConfusion⟩
  exact ⟨_, _, ⟨⟨test_reference_wf, rfl⟩, List.cons_ne_nil _ _, rfl⟩, step_of_whole hq, rfl,
    step_of_whole ⟨test_reference_wf, h⟩⟩

/-- The right side of `ResponseLostExactlyWhen` is met, with the last free slot filled as a command is accepted. -/
theorem witness_response_lost :
    let s : State := { responding 1 ⟨.manual, 0⟩ 0 with rx := [0x10000000], tx := [1, 2, 3, 4, 5, 6, 7] }
    RunsFree s ∧ accept s = true ∧ txEnqueue s = true ∧ freeSlots s = s.cfg.txFullMargin + 1 ∧ removedWords s = 0 := by
  decide

/-- `ResponsesFollowCommandsInOrder`: a run of one cycle under P_TX. -/
theorem witness_shows :
    ∃ ob t, Shows (fun u => RunsFree u ∧ PTX u) [ob] (withWords [0x10500000]) t ∧
      (withWords [0x10500000]).core.pipe.opcode < 2 ^ (withWords [0x10500000]).cfg.layout.opcode.width :=
  ⟨_, _, ⟨_, by decide, step_of_whole (by decide), rfl, rfl⟩, by decide⟩

/-- `ReadAfterWriteReturnsTheData`: WRITE 5, READ 5 from reset. -/
theorem witness_read_after_write :
    ∃ t u, decodeWord Config.reference 0x2052A000 = .write 5 0x2A 0 ∧
      decodeWord Config.reference 0x10500000 = .read 5 0 0 ∧
      TakesCommand (withWords [0x2052A000, 0x10500000]) ∧ LeavesAlone (withWords [0x2052A000, 0x10500000]) 5 ∧
      step (withWords [0x2052A000, 0x10500000]) = .next t ∧ TakesCommand t ∧ LeavesAlone t 5 ∧ PRD t ∧
      step t = .next u ∧ RunsFree u ∧ txFull u = false := by
  refine ⟨_, _, by decide, by decide, by decide, by decide, step_of_whole (by decide), ?_, ?_, ?_, step_of_whole ?_, ?_,
    ?_⟩ <;> decide

/-- `WriteAfterReadKeepsTheData`: READ 5, WRITE 5 from reset. -/
theorem witness_write_after_read :
    ∃ t, decodeWord Config.reference 0x10500000 = .read 5 0 0 ∧
      decodeWord Config.reference 0x2052A000 = .write 5 0x2A 0 ∧
      TakesCommand (withWords [0x10500000, 0x2052A000]) ∧ PRD (withWords [0x10500000, 0x2052A000]) ∧
      cellsInRange Config.reference (withWords [0x10500000, 0x2052A000]).peripheral.locations = true ∧
      step (withWords [0x10500000, 0x2052A000]) = .next t ∧ TakesCommand t := by
  refine ⟨_, by decide, by decide, by decide, by decide, by decide, step_of_whole (by decide), ?_⟩
  decide

/-- A cycle after a STEP or START with the receive queue empty is undisturbed and unpaused. -/
theorem noTrigger_of_empty {ts : List Trigger} {s : State} (h : s.rx = []) : NoTrigger ts s := by
  intro w hw
  simp [fetchWord, h] at hw

/-- `StepClocksExactlyN`: STEP 3 from reset, then one undisturbed cycle. -/
theorem witness_step_run :
    ∃ t u, TakesCommand (withWords [0x40000003]) ∧ (withWords [0x40000003]).core.cc = ⟨.manual, 0⟩ ∧
      3 < 2 ^ (withWords []).cfg.layout.value.width ∧ exec (.step 0 0 3) (withWords [0x40000003]) = .next t ∧
      RunsTo Undisturbed 1 t u := by
  refine ⟨_, _, by decide, by decide, by decide, exec_of_whole (by decide) _, ⟨_, ⟨?_, noTrigger_of_empty rfl⟩,
    step_of_whole ?_, rfl⟩⟩ <;> decide

/-- `StepClocksExactlyN` where its count runs out: STEP 1 after its one cycle (`k = n`), and STEP 0 after one more. -/
theorem witness_step_run_ends :
    (∃ t u, TakesCommand (withWords [0x40000001]) ∧ exec (.step 0 0 1) (withWords [0x40000001]) = .next t ∧
      RunsTo Undisturbed 1 t u) ∧
    (∃ t u, TakesCommand (withWords [0x40000000]) ∧ exec (.step 0 0 0) (withWords [0x40000000]) = .next t ∧
      RunsTo Undisturbed 1 t u) := by
  refine ⟨⟨_, _, by decide, exec_of_whole (by decide) _, ⟨_, ⟨?_, noTrigger_of_empty rfl⟩, step_of_whole ?_, rfl⟩⟩,
    ⟨_, _, by decide, exec_of_whole (by decide) _, ⟨_, ⟨?_, noTrigger_of_empty rfl⟩, step_of_whole ?_, rfl⟩⟩⟩ <;> decide

/-- `StartClocksUntilPause`: START from reset, then one cycle without a PAUSE. -/
theorem witness_start_run :
    ∃ t u, TakesCommand (withWords [0x50000000]) ∧ exec (.start 0 0 0) (withWords [0x50000000]) = .next t ∧
      RunsTo Unpaused 1 t u := by
  refine ⟨_, _, by decide, exec_of_whole (by decide) _, ⟨_, ⟨?_, noTrigger_of_empty rfl⟩, step_of_whole ?_, rfl⟩⟩ <;>
    decide

/-- The reset statements: the line high, under both values of `EX_IN_RESET`, with a command at the head. -/
theorem witness_reset_cycle :
    ((withEvents (withWords [0x2052A000]) [resetCycle]).cfg.wf = true ∧
      (currentEvent (withEvents (withWords [0x2052A000]) [resetCycle])).rst = .high ∧
      (withEvents (withWords [0x2052A000]) [resetCycle]).cfg.exInReset = .active) ∧
    ((gated (withEvents (withWords [0x2052A000]) [resetCycle])).cfg.wf = true ∧
      (gated (withEvents (withWords [0x2052A000]) [resetCycle])).cfg.exInReset = .gated) := by decide

theorem witness_first_command :
    (withWords [0x70000000]).core = State.reset.core ∧ TakesCommand (withWords [0x70000000]) := by decide

/-- A state outside reset meets the invariant too: a count in progress, a location written, words in both queues. -/
theorem witness_invariant :
    Invariant { withCc [0x70000000] ⟨.manual, 3⟩ with
      core := ⟨⟨false, 4, 5, 3⟩, ⟨.manual, 3⟩⟩, tx := [1], peripheral := ⟨[(5, 0x2A), (7, 1)], 0x2A, 4⟩ } := by
  constructor <;> decide

theorem witness_layout_wf : Layout.reference.wf = true ∧ Instr.wf Config.reference (.nop 15 255 255 4095) = true := by
  decide

end Sys2Proof.Tests
end

/-!
PROOFS. The statements of 00_scope.md: the reference words, and the invariant, part by part of the state: cycle
control, the core, the two queues, the read-data line.
-/

namespace Sys2Proof.Machine

/-! ### Cycle control (41_cycle_control.md rules R131, R134) -/

/-- Cycle control within its width, and no count in progress while AUTONOMOUS (41_cycle_control.md rule R134). -/
structure CycleControl.InRange (cfg : Config) (cc : CycleControl) : Prop where
  count_lt : cc.remainingSteps < 2 ^ cfg.layout.value.width
  autonomous_idle : cc.mode = .autonomous → cc.remainingSteps = 0

/-- In MANUAL mode the width of the count is all there is to keep. -/
theorem CycleControl.InRange.of_manual {cfg : Config} {n : Nat} (h : n < 2 ^ cfg.layout.value.width) :
    CycleControl.InRange cfg ⟨.manual, n⟩ := ⟨h, nofun⟩

/-- A count of 0 is in range in either mode. -/
theorem CycleControl.InRange.of_zero (cfg : Config) (m : Mode) : CycleControl.InRange cfg ⟨m, 0⟩ :=
  ⟨by positivity, fun _ => rfl⟩

theorem countDown_inRange {cfg : Config} {cc : CycleControl} (h : cc.InRange cfg) : (countDown cc).InRange cfg := by
  unfold countDown
  split
  · exact .of_manual (Nat.lt_of_le_of_lt (Nat.sub_le _ _) h.count_lt)
  · exact h

/-- Every policy keeps the width: `reload` by the operand, `ignore` by the old count, `extend` by its cap. -/
theorem stepLoad_inRange {cfg : Config} {cc : CycleControl} {n : Nat} (h : cc.InRange cfg)
    (hn : n < 2 ^ cfg.layout.value.width) : (stepLoad cfg cc n).InRange cfg := by
  unfold stepLoad
  split
  · exact .of_manual hn
  · split
    · exact .of_manual hn
    · exact .of_manual (Nat.lt_of_le_of_lt (Nat.sub_le _ _) h.count_lt)
    · exact .of_manual (Nat.lt_of_le_of_lt (Nat.min_le_right _ _) (Nat.sub_one_lt (by positivity)))

theorem ccNext_inRange {cfg : Config} {cc : CycleControl} {n : Nat} (t : Trigger) (h : cc.InRange cfg)
    (hn : n < 2 ^ cfg.layout.value.width) : (ccNext cfg cc t n).InRange cfg := by
  unfold ccNext
  split
  case h_1 | h_2 => exact .of_zero cfg _
  case h_3 => exact stepLoad_inRange h hn
  case h_4 | h_5 | h_6 => exact countDown_inRange h

/-! ### The core (00_scope.md rule R10, 41_cycle_control.md rule R135) -/

/-- What the invariant asks of the core's stored state alone. -/
structure CoreState.InRange (cfg : Config) (c : CoreState) : Prop where
  opcode_lt : c.pipe.opcode < 2 ^ cfg.layout.opcode.width
  address_lt : c.pipe.address < 2 ^ cfg.layout.address.width
  cc : c.cc.InRange cfg
  snapshot_eq : c.pipe.cycleCount = c.cc.remainingSteps

theorem Invariant.core_inRange {s : State} (h : Invariant s) : s.core.InRange s.cfg :=
  ⟨h.opcode_lt, h.address_lt, ⟨h.count_lt, h.autonomous_idle⟩, h.snapshot_eq⟩

theorem CoreState.reset_inRange (cfg : Config) : CoreState.reset.InRange cfg :=
  ⟨by simp [CoreState.reset], by simp [CoreState.reset], .of_zero cfg _, rfl⟩

theorem effectiveCore_inRange {s : State} (h : s.core.InRange s.cfg) : (effectiveCore s).InRange s.cfg := by
  unfold effectiveCore
  split
  · exact CoreState.reset_inRange s.cfg
  · exact h

/-- The edge takes the opcode and the address from slices of a word, the count from `ccNext`, and the snapshot from
that same count. -/
theorem edgeCore_inRange {s : State} (h : s.core.InRange s.cfg) (e : CommandEffect) :
    (edgeCore s (headFields s) e).InRange s.cfg := by
  unfold edgeCore
  split
  · exact CoreState.reset_inRange s.cfg
  · exact ⟨sliceBits_lt _ _, sliceBits_lt _ _, ccNext_inRange _ (effectiveCore_inRange h).cc (trunc_lt _ _), rfl⟩

/-! ### The queues (20_memory.md rules R45, R46) -/

theorem wordsInRange_iff {cfg : Config} {ws : List Word} :
    wordsInRange cfg ws = true ↔ ∀ w ∈ ws, w < 2 ^ cfg.layout.wordWidth := by
  simp [wordsInRange]

/-- The words of the receive queue after the edge were in it before or are pushed words cut to `W` bits. -/
theorem wordsInRange_edgeRx {cfg : Config} {rx : List Word} (ev : Event) (o : Outputs)
    (h : wordsInRange cfg rx = true) : wordsInRange cfg (edgeRx cfg ev o rx) = true := by
  rw [wordsInRange_iff] at h ⊢
  intro w hw
  rcases List.mem_append.1 hw with hkept | hpushed
  · refine h w ?_
    split at hkept
    · exact List.mem_of_mem_tail hkept
    · exact hkept
  · obtain ⟨v, -, rfl⟩ := List.mem_map.1 (List.mem_of_mem_take hpushed)
    exact trunc_lt _ _

/-- Words are appended only as far as the kept words leave slots free. -/
theorem length_edgeRx_le {cfg : Config} {rx : List Word} (ev : Event) (o : Outputs) (h : rx.length ≤ cfg.rxDepth) :
    (edgeRx cfg ev o rx).length ≤ cfg.rxDepth := by
  have hkept : (if o.rxDequeue then rx.tail else rx).length ≤ cfg.rxDepth := by
    split
    · exact Nat.le_trans (by simp) h
    · exact h
  simp only [edgeRx, List.length_append, List.length_take]
  omega

/-- The words of the transmit queue after the edge were in it before or are the response enqueued. -/
theorem wordsInRange_edgeTx {cfg : Config} {tx : List Word} (ev : Event) {o : Outputs}
    (h : wordsInRange cfg tx = true) (ho : o.txData < 2 ^ cfg.layout.wordWidth) :
    wordsInRange cfg (edgeTx ev o tx) = true := by
  rw [wordsInRange_iff] at h ⊢
  intro w hw
  rcases List.mem_append.1 hw with hkept | hadded
  · exact h w (List.mem_of_mem_drop hkept)
  · split at hadded
    · rwa [List.mem_singleton.1 hadded]
    · cases hadded

/-- A response is enqueued only when the queue is not full (42_response_compose.md rule R160), so a slot is free. -/
theorem length_lt_of_txEnqueue {s : State} (h : txEnqueue s = true) : s.tx.length < s.cfg.txDepth := by
  simp only [txEnqueue, txFull, Bool.and_eq_true, Bool.not_eq_true', decide_eq_false_iff_not] at h
  omega

theorem length_edgeTx_le {cfg : Config} {tx : List Word} (ev : Event) {o : Outputs} (h : tx.length ≤ cfg.txDepth)
    (ho : o.txEnqueue = true → tx.length < cfg.txDepth) : (edgeTx ev o tx).length ≤ cfg.txDepth := by
  simp only [edgeTx, List.length_append, List.length_drop]
  split
  · have := ho ‹_›
    simp only [List.length_singleton]
    omega
  · simp only [List.length_nil]
    omega

/-- The response word is a `W`-bit word (30_encoding.md rule R60). -/
theorem responseWord_lt {s : State} (h : s.cfg.wf = true) : responseWord s < 2 ^ s.cfg.layout.wordWidth :=
  encodeFields_lt (Config.layout_wf h) _

/-! ### The read-data line (20_memory.md rule R44) -/

/-- The line carries an item of `W_DATA` bits, whether or not the peripheral meets P_RD. -/
theorem edgeReadData_lt {cfg : Config} {latched : Memory} (ev : Event) (o : Outputs) (cycle : Nat)
    (h : cellsInRange cfg latched = true) : edgeReadData cfg ev o latched cycle < 2 ^ cfg.layout.data.width := by
  unfold edgeReadData
  split
  · exact trunc_lt _ _
  · split
    · exact readCell_lt cfg _ h
    · exact trunc_lt _ _

/-! ### The statements -/

/-- The edge of a cycle on the head word's fields keeps the invariant, whatever the effect and the environment. -/
theorem invariant_clockEdge {s : State} (h : Invariant s) (e : CommandEffect) :
    Invariant (clockEdge s (headFields s) e) := by
  have hcore : (edgeCore s (headFields s) e).InRange s.cfg := edgeCore_inRange h.core_inRange e
  exact
    { cfg_wf := h.cfg_wf
      opcode_lt := hcore.opcode_lt
      address_lt := hcore.address_lt
      count_lt := hcore.cc.count_lt
      autonomous_idle := hcore.cc.autonomous_idle
      snapshot_eq := hcore.snapshot_eq
      memory_wf := memoryWf_edgeLocations _ _ _ h.memory_wf
      cells_lt := cellsInRange_edgeLocations _ _ _ h.cells_lt
      readData_lt := edgeReadData_lt _ _ _ (cellsInRange_latchedLocations _ _ _ h.cells_lt)
      rx_lt := wordsInRange_edgeRx _ _ h.rx_lt
      rx_depth := length_edgeRx_le _ _ h.rx_depth
      tx_lt := wordsInRange_edgeTx _ h.tx_lt (responseWord_lt h.cfg_wf)
      tx_depth := length_edgeTx_le _ h.tx_depth length_lt_of_txEnqueue }

/-- Settles O52: a step is one clock edge on the head word's fields, and that edge keeps each part of the invariant. -/
theorem stepKeepsTheInvariant : Obligations.StepKeepsTheInvariant := by
  intro s t h hstep
  obtain ⟨-, rfl⟩ := step_eq_next.1 hstep
  exact invariant_clockEdge h (headEffect s)

/-- Settles O8, by running the decoder on each word. -/
theorem referenceWordsDecode : Obligations.ReferenceWordsDecode := by
  unfold Obligations.ReferenceWordsDecode
  refine ⟨?_, ?_, ?_, ?_, ?_, ?_, ?_, ?_, ?_⟩ <;> decide

end Sys2Proof.Machine

/-!
PROOFS. The statements of 10_state.md: the step as the meaning of the decoded word, what a step leaves of the
configuration, and the reset values.
-/

namespace Sys2Proof.Machine

/-! ### A cycle that accepts nothing (40_command_control.md rules R102, R105, R107) -/

theorem gatedTrigger_of_not_accept {s : State} (h : accept s = false) (e : CommandEffect) :
    gatedTrigger s e = .none := by
  simp [gatedTrigger, h]

/-- Without an accepted command Cycle Control only counts. -/
theorem nextCc_of_not_accept {s : State} (h : accept s = false) (d : Decoded) (e : CommandEffect) :
    nextCc s d e = countDown (effectiveCore s).cc := by
  rw [nextCc, gatedTrigger_of_not_accept h, ccNext_none]

/-- The two strobes, all that the outputs take from the effect, are low in an unaccepted cycle. -/
theorem outputsOf_congr_of_not_accept {s : State} (h : accept s = false) (d : Decoded) (e e' : CommandEffect) :
    outputsOf s d e = outputsOf s d e' := by
  simp [outputsOf, h]

theorem edgeCore_congr_of_not_accept {s : State} (h : accept s = false) (d : Decoded) (e e' : CommandEffect) :
    edgeCore s d e = edgeCore s d e' := by
  simp only [edgeCore, nextPipe, nextCc_of_not_accept h]

/-- The effect of a command that is not accepted is lost: the cycle depends on the command's fields alone. -/
theorem runCommand_congr_of_not_accept {s : State} (h : accept s = false) (d : Decoded) (e e' : CommandEffect) :
    runCommand d e s = runCommand d e' s := by
  have hedge : clockEdge s d e = clockEdge s d e' := by
    simp only [clockEdge, outputsOf_congr_of_not_accept h d e e', edgeCore_congr_of_not_accept h d e e']
  simp only [runCommand, hedge]

/-- An idle cycle is the cycle of any command with the fields on the `rxData` line: its effect is not accepted. -/
theorem idleCycle_eq_exec {s : State} (h : s.rx = []) : idleCycle s = exec (decodeWord s.cfg (rxData s)) s := by
  rw [exec_eq_runCommand, fieldsOf_decodeWord]
  exact runCommand_congr_of_not_accept (accept_eq_false (.inl h)) _ _ _

theorem step_of_rx_nil {s : State} (h : s.rx = []) : step s = idleCycle s := by
  simp [step, fetchWord, h]

theorem step_of_rx_cons {s : State} {w : Word} {rest : List Word} (h : s.rx = w :: rest) :
    step s = exec (decodeWord s.cfg w) s := by
  simp [step, fetchWord, h]

/-! ### The reset state (10_state.md rule R31) -/

/-- A core that holds the reset values reads as reset whatever the reset line does. -/
theorem effectiveCore_of_core_reset {s : State} (h : s.core = CoreState.reset) :
    effectiveCore s = CoreState.reset := by
  rw [effectiveCore, h, ite_self]

theorem clockEnable_reset : clockEnable CoreState.reset.cc = false := rfl

/-! ### The statements -/

/-- Settles O9: with a word at the head this is how the step dispatches; with the queue empty the idle cycle and the
command on the `rxData` line differ only in an effect that no cycle without acceptance takes up. -/
theorem stepRunsTheDecodedCommand : Obligations.StepRunsTheDecodedCommand := fun _ =>
  ⟨fun _ _ h => step_of_rx_cons h, fun h => (step_of_rx_nil h).trans (idleCycle_eq_exec h)⟩

/-- Settles O12: every step is one clock edge, which keeps the configuration and counts one cycle. -/
theorem configurationNeverChanges : Obligations.ConfigurationNeverChanges := by
  intro s t hstep
  obtain ⟨-, rfl⟩ := step_eq_next.1 hstep
  exact ⟨clockEdge_cfg .., clockEdge_cycle .., clockEdge_events ..⟩

/-- Settles O46: a core with the reset values holds no command to answer and no count to clock. -/
theorem resetValues : Obligations.ResetValues := by
  refine ⟨rfl, fun s hcore hwhole => ⟨_, _, step_of_whole hwhole, clockEdge_last .., clockEdge_cfg .., ?_, ?_⟩⟩
  · rw [outputsOf_pClockEnable, effectiveCore_of_core_reset hcore, clockEnable_reset]
  · rw [outputsOf_txEnqueue]
    exact txEnqueue_of_nop (by rw [hcore])

/-- Settles O51: the core's part holds under every configuration, the contents are empty, and the reference
configuration is well-formed. -/
theorem resetMeetsTheInvariant : Obligations.ResetMeetsTheInvariant := by
  have hcore : CoreState.reset.InRange Config.reference := CoreState.reset_inRange _
  exact
    { cfg_wf := by decide
      opcode_lt := hcore.opcode_lt
      address_lt := hcore.address_lt
      count_lt := hcore.cc.count_lt
      autonomous_idle := hcore.cc.autonomous_idle
      snapshot_eq := hcore.snapshot_eq
      memory_wf := memoryWf_nil
      cells_lt := rfl
      readData_lt := by decide
      rx_lt := rfl
      rx_depth := Nat.zero_le _
      tx_lt := rfl
      tx_depth := Nat.zero_le _ }

end Sys2Proof.Machine

/-!
PROOFS. The statements of 20_memory.md: what the edge does to the queues and the register file, command by command and
as a frame; what READ returns next to a WRITE; the reference peripheral; and the order of the responses.
-/

namespace Sys2Proof.Machine

/-! ### Reading back the fields of a command and of a response (30_encoding.md rules R65, R66) -/

/-- Of two disjoint slots, each reads as 0 through the other. -/
theorem sliceBits_placeBits_of_disjoint {r q : BitRange} {W : Nat} (hr : r.fits W = true) (hq : q.fits W = true)
    (h : r.disjoint q = true) (v : Nat) : sliceBits (placeBits r v) q = 0 ∧ sliceBits (placeBits q v) r = 0 :=
  have hbits := BitRange.disjoint_bits hr hq h
  ⟨sliceBits_placeBits_disjoint hbits v, sliceBits_placeBits_disjoint hbits.symm v⟩

/-- Decoding an encoded word gives every field back, cut to its width. -/
theorem decodeFields_encodeFields {l : Layout} (h : l.wf = true) (d : Decoded) :
    decodeFields l (encodeFields l d) =
      ⟨trunc l.opcode.width d.opcode, trunc l.address.width d.address, trunc l.data.width d.data,
        trunc l.value.width d.value⟩ := by
  have p := Layout.parts h
  have hoa := sliceBits_placeBits_of_disjoint p.opcode p.address p.opcode_address
  have hod := sliceBits_placeBits_of_disjoint p.opcode p.data p.opcode_data
  have hov := sliceBits_placeBits_of_disjoint p.opcode p.value p.opcode_value
  have had := sliceBits_placeBits_of_disjoint p.address p.data p.address_data
  have hav := sliceBits_placeBits_of_disjoint p.address p.value p.address_value
  have hdv := sliceBits_placeBits_of_disjoint p.data p.value p.data_value
  simp [decodeFields, encodeFields, sliceBits_or, sliceBits_placeBits_self, hoa, hod, hov, had, hav, hdv]

/-- The data of a decoded command is a slice of its word, so it fits its field. -/
theorem data_lt_of_decodeWord {cfg : Config} {w : Word} {i : Instr} (h : decodeWord cfg w = i) :
    (fieldsOf cfg.opcodes i).data < 2 ^ cfg.layout.data.width := by
  rw [← h, fieldsOf_decodeWord]
  exact sliceBits_lt _ _

/-- The opcode of a response is the one in the pipeline register, cut to its field (42_response_compose.md rule
R162). -/
theorem opcode_responseWord {s : State} (h : s.cfg.wf = true) :
    sliceBits (responseWord s) s.cfg.layout.opcode =
      trunc s.cfg.layout.opcode.width (effectiveCore s).pipe.opcode :=
  congrArg Decoded.opcode (decodeFields_encodeFields (Config.layout_wf h) _)

theorem classOf_read (o : Opcodes) : classOf o o.read = .read := if_pos rfl

theorem Config.read_lt {cfg : Config} (h : cfg.wf = true) : cfg.opcodes.read < 2 ^ cfg.layout.opcode.width := by
  have ho := Config.opcodes_wf h
  simp only [Opcodes.wf, Opcodes.toList, List.all_cons, Bool.and_eq_true, decide_eq_true_eq] at ho
  exact ho.1.1

theorem Config.locations_le {cfg : Config} (h : cfg.wf = true) :
    cfg.locations ≤ 2 ^ cfg.layout.address.width := by
  simp only [Config.wf, Bool.and_eq_true, decide_eq_true_eq] at h
  exact h.2

/-! ### The register file after the edge (20_memory.md rules R41, R42, R49) -/

/-- The core's access leaves a location alone that a write of this edge does not address and a reset of this edge does
not set. -/
theorem readCell_edgeAccess_of_untouched (cfg : Config) {o : Outputs} {b : Nat}
    (hw : o.pWriteEnable = true → b ≠ o.pAddr) (hr : o.pReset = true → ∀ c ∈ resetCells cfg, c.1 ≠ b) (m : Memory) :
    readCell (edgeAccess cfg o m) b = readCell m b := by
  have hwritten : readCell (if o.pWriteEnable then storeItem cfg m o.pAddr o.pWriteData else m) b = readCell m b := by
    split
    · exact readCell_storeItem_of_ne cfg m _ (hw ‹_›)
    · rfl
  unfold edgeAccess
  dsimp only
  split
  · rw [readCell_storeItems_of_ne cfg _ _ (hr ‹_›), hwritten]
  · exact hwritten

/-- A write without a reset leaves the item at the location addressed. -/
theorem readCell_edgeAccess_of_write (cfg : Config) {o : Outputs} {m : Memory} (hw : o.pWriteEnable = true)
    (hr : o.pReset = false) (hm : memoryWf m = true) (ha : o.pAddr < cfg.locations) :
    readCell (edgeAccess cfg o m) o.pAddr = trunc cfg.layout.data.width o.pWriteData := by
  simp [edgeAccess, hw, hr, readCell_storeItem_self cfg _ hm ha]

/-- A reset leaves its item at a location of a region, written at the same edge or not, if the regions agree on it. -/
theorem readCell_edgeAccess_of_reset (cfg : Config) {o : Outputs} {m : Memory} {b x : Nat} (hr : o.pReset = true)
    (hm : memoryWf m = true) (hb : b < cfg.locations) (hmem : ∃ c ∈ resetCells cfg, c.1 = b)
    (hval : ∀ c ∈ resetCells cfg, c.1 = b → c.2 = x) :
    readCell (edgeAccess cfg o m) b = trunc cfg.layout.data.width x := by
  have hwritten : memoryWf (if o.pWriteEnable then storeItem cfg m o.pAddr o.pWriteData else m) = true := by
    split
    · exact memoryWf_storeItem cfg _ _ hm
    · exact hm
  simp only [edgeAccess, hr, if_true]
  exact readCell_storeItems_const cfg hb _ _ hwritten hval (.inl hmem)

/-- Where the reset's one region starts at location 0, it sets the locations below its size (20_memory.md rule R56). -/
theorem mem_resetCells_of_whole {cfg : Config} {n x : Nat} (h : cfg.resetRegions = [⟨0, n, x⟩]) (c : Cell) :
    c ∈ resetCells cfg ↔ c.1 < n ∧ c.2 = x := by
  simp [mem_resetCells, h]

/-- The frame of a command: a location that the peripheral leaves alone and no strobe of the command reaches reads as
before. -/
theorem readCell_of_exec_untouched {i : Instr} {s t : State} {b : Nat} (hexec : exec i s = .next t)
    (h : LeavesAlone s b)
    (hw : accept s = true → (effectOf i).writeEnable = true → b ≠ (fieldsOf s.cfg.opcodes i).address)
    (hr : accept s = true → (effectOf i).periphReset = true → ∀ c ∈ resetCells s.cfg, c.1 ≠ b) :
    readCell t.peripheral.locations b = readCell s.peripheral.locations b := by
  obtain ⟨-, rfl⟩ := exec_eq_next.1 hexec
  refine readCell_edgeLocations_of_untouched h (readCell_edgeAccess_of_untouched s.cfg (fun ho => ?_) fun ho => ?_)
  · obtain ⟨hacc, he⟩ := Bool.and_eq_true_iff.1 ho
    exact hw hacc he
  · obtain ⟨hacc, he⟩ := Bool.and_eq_true_iff.1 ho
    exact hr hacc he

/-- The commands without a strobe are all but WRITE and RESET (40_command_control.md rule R104). -/
theorem effectOf_no_strobe {i : Instr} (hw : ∀ a d v, i ≠ .write a d v) (hr : ∀ a d v, i ≠ .reset a d v) :
    (effectOf i).writeEnable = false ∧ (effectOf i).periphReset = false := by
  cases i with
  | write a d v => exact absurd rfl (hw a d v)
  | reset a d v => exact absurd rfl (hr a d v)
  | read | step | start | pause | status | nop => exact ⟨rfl, rfl⟩

theorem cfg_of_exec {i : Instr} {s t : State} (h : exec i s = .next t) : t.cfg = s.cfg := by
  obtain ⟨-, rfl⟩ := exec_eq_next.1 h
  exact clockEdge_cfg ..

/-- A command without a trigger leaves `cc` to counting (41_cycle_control.md rule R131). -/
theorem cc_of_exec_no_trigger {i : Instr} {s t : State} (h : exec i s = .next t) (hl : (currentEvent s).rst = .low)
    (ht : commandTrigger i = .none) : t.core.cc = countDown s.core.cc := by
  obtain ⟨-, rfl⟩ := exec_eq_next.1 h
  rw [clockEdge_core, edgeCore_of_low hl]
  exact nextCc_of_no_trigger hl ht _

/-! ### The experiment's clock (20_memory.md rule R43) -/

theorem ownChanges_unclocked (ev : Event) : ownChanges ev false = ev.ownWrites := by
  simp [ownChanges]

theorem clockedEdges_clockEdge (s : State) (d : Decoded) (e : CommandEffect) :
    (clockEdge s d e).peripheral.clockedEdges =
      s.peripheral.clockedEdges + if clockEnable (effectiveCore s).cc then 1 else 0 := by
  rw [clockEdge_peripheral, edgePeripheral, outputsOf_pClockEnable]
  cases clockEnable (effectiveCore s).cc <;> rfl

/-- The register file and the read of an unclocked edge do not look at the clocked logic's changes. -/
theorem edgePeripheral_unclocked (cfg : Config) (ev : Event) {o : Outputs} (h : o.pClockEnable = false)
    (ws : List Cell) (cycle : Nat) (p : Peripheral) :
    edgePeripheral cfg { ev with clockedWrites := ws } o cycle p = edgePeripheral cfg ev o cycle p := by
  simp [edgePeripheral, edgeReadData, latchedLocations, edgeLocations, h, ownChanges_unclocked]

/-- At an unclocked edge the machine is the same whatever the clocked logic would have changed: in no other place does
the cycle look at those changes. -/
theorem clockEdge_unclocked {s : State} {ev : Event} {rest : List Event} (hev : s.events = ev :: rest)
    (h : clockEnable (effectiveCore s).cc = false) (ws : List Cell) (d : Decoded) (e : CommandEffect) :
    clockEdge { s with events := { ev with clockedWrites := ws } :: rest } d e = clockEdge s d e := by
  obtain ⟨cfg, core, rx, tx, p, events, cycle, last⟩ := s
  obtain rfl : events = ev :: rest := hev
  exact State.mk.injEq .. |>.mpr ⟨rfl, rfl, rfl, rfl, edgePeripheral_unclocked cfg ev h ws cycle p, rfl, rfl, rfl⟩

/-- The clocked logic's changes decide nothing of whether the cycle has a meaning. -/
theorem runCommand_unclocked {s : State} {ev : Event} {rest : List Event} (hev : s.events = ev :: rest)
    (h : clockEnable (effectiveCore s).cc = false) (ws : List Cell) (d : Decoded) (e : CommandEffect) :
    runCommand d e { s with events := { ev with clockedWrites := ws } :: rest } = runCommand d e s := by
  simp only [runCommand, clockEdge_unclocked hev h]
  simp [currentEvent, hev]

/-! ### The read-data line (20_memory.md rules R44, R56) -/

/-- A read before the core's access presents the old item of a location that the peripheral leaves alone. -/
theorem readData_before {s : State} (hp : PRD s) {d : Decoded} (e : CommandEffect) (ha : d.address < s.cfg.locations)
    (ht : s.cfg.readTiming = .beforeAccess) (h : LeavesAlone s d.address) :
    (clockEdge s d e).peripheral.readData = readCell s.peripheral.locations d.address := by
  rw [readData_of_prd hp e ha, readCell_latchedLocations_before ht h]

/-- A read after the core's access presents what the edge leaves. -/
theorem readData_after {s : State} (hp : PRD s) {d : Decoded} (e : CommandEffect) (ha : d.address < s.cfg.locations)
    (ht : s.cfg.readTiming = .afterEdge) :
    (clockEdge s d e).peripheral.readData = readCell (clockEdge s d e).peripheral.locations d.address := by
  rw [readData_of_prd hp e ha, latchedLocations, ht]
  rfl

/-! ### An accepted WRITE and an accepted READ at the head -/

/-- A step with an accepted command at the head is that command's cycle, and the word after it moves to the head. -/
theorem step_of_takesCommand {s t : State} {w : Word} {rest : List Word} {i : Instr} (hrx : s.rx = w :: rest)
    (hi : decodeWord s.cfg w = i) (h : TakesCommand s) (hstep : step s = .next t) :
    exec i s = .next t ∧ ∃ added, t.rx = rest ++ added := by
  rw [step_of_rx_cons hrx, hi] at hstep
  refine ⟨hstep, ?_⟩
  obtain ⟨-, rfl⟩ := exec_eq_next.1 hstep
  exact rx_of_takesCommand hrx h _ _

/-- After an accepted WRITE the location addressed holds the data (20_memory.md rule R41). -/
theorem readCell_of_write {s t : State} {a d v : Nat} (hexec : exec (.write a d v) s = .next t) (h : TakesCommand s)
    (hm : memoryWf s.peripheral.locations = true) (ha : a < s.cfg.locations) (hla : LeavesAlone s a) :
    readCell t.peripheral.locations a = trunc s.cfg.layout.data.width d := by
  obtain ⟨-, rfl⟩ := exec_eq_next.1 hexec
  refine (readCell_edgeLocations hm hla).trans (readCell_edgeAccess_of_write s.cfg ?_ ?_ hm ha)
  · simp [accept_of_takesCommand h, effectOf]
  · simp [effectOf]

/-- With a command in the pipeline register and room in the transmit queue a cycle without reset enqueues the answer
(42_response_compose.md rule R160). -/
theorem txEnqueue_of_pending {t : State} (h : RunsFree t) (hn : t.core.pipe.nop = false) (hfull : txFull t = false) :
    txEnqueue t = true := by
  simp [txEnqueue, effectiveCore_of_low h.2, hn, hfull]

/-- The cycle after an accepted READ whose edge met P_RD answers it, with its opcode, its address and the content of the
location after the READ's own edge (40_command_control.md rule R110, 42_response_compose.md rule R162). -/
theorem answer_of_read {s t : State} {a d v : Nat} (hexec : exec (.read a d v) s = .next t) (hs : TakesCommand s)
    (hp : PRD s) (ha : a < s.cfg.locations)
    (hd : readCell t.peripheral.locations a < 2 ^ s.cfg.layout.data.width) (ht : RunsFree t)
    (hfull : txFull t = false) :
    txEnqueue t = true ∧ (decodeFields s.cfg.layout (responseWord t)).opcode = s.cfg.opcodes.read ∧
      (decodeFields s.cfg.layout (responseWord t)).address = a ∧
      (decodeFields s.cfg.layout (responseWord t)).data = readCell t.peripheral.locations a := by
  have hwf := hs.1.1
  obtain ⟨-, rfl⟩ := exec_eq_next.1 hexec
  have hcore := edgeCore_of_takesCommand hs (fieldsOf s.cfg.opcodes (.read a d v)) (effectOf (.read a d v))
  have hline := readData_of_no_strobe hp (d := fieldsOf s.cfg.opcodes (.read a d v)) (e := effectOf (.read a d v)) ha
    (by simp [effectOf]) (by simp [effectOf])
  refine ⟨txEnqueue_of_pending ht (by rw [clockEdge_core, hcore]) hfull, ?_⟩
  rw [responseWord_of_low ht.2 rfl (c := .read) (by rw [clockEdge_core, hcore]; exact classOf_read _), clockEdge_core,
    hcore, responseData, hline, clockEdge_cfg, decodeFields_encodeFields (Config.layout_wf hwf)]
  exact ⟨trunc_eq_self (Config.read_lt hwf), trunc_eq_self (Nat.lt_of_lt_of_le ha (Config.locations_le hwf)),
    trunc_eq_self hd⟩

/-! ### The order of the responses (20_memory.md rule R52) -/

theorem acceptedOpcodes_cons (l : Layout) (ob : Observation) (obs : List Observation) :
    acceptedOpcodes l (ob :: obs) =
      (if ob.outputs.rxDequeue then [sliceBits ob.inputs.rxData l.opcode] else []) ++ acceptedOpcodes l obs := by
  simp only [acceptedOpcodes, List.filter_cons]
  split <;> rfl

theorem answeredOpcodes_cons (l : Layout) (ob : Observation) (obs : List Observation) :
    answeredOpcodes l (ob :: obs) =
      (if ob.outputs.txEnqueue then [sliceBits ob.outputs.txData l.opcode] else []) ++ answeredOpcodes l obs := by
  simp only [answeredOpcodes, List.filter_cons]
  split <;> rfl

/-- A cycle under P_TX answers exactly the command that was pending (70_reset_and_hazards.md rule R227). -/
theorem answered_eq_pending {s : State} (h : RunsFree s) (hp : PTX s)
    (hop : s.core.pipe.opcode < 2 ^ s.cfg.layout.opcode.width) :
    (if txEnqueue s then [sliceBits (responseWord s) s.cfg.layout.opcode] else []) = pendingOpcodes s := by
  have hcore := effectiveCore_of_low h.2
  rw [opcode_responseWord h.1, hcore, trunc_eq_self hop, pendingOpcodes]
  cases hn : s.core.pipe.nop with
  | true => simp [txEnqueue_of_nop hn]
  | false => simp [txEnqueue_of_pending h hn (hp hn)]

/-- The command pending after a cycle without reset is the one it accepted (40_command_control.md rule R106). -/
theorem pendingOpcodes_clockEdge {s : State} (h : RunsFree s) (d : Decoded) (e : CommandEffect) :
    pendingOpcodes (clockEdge s d e) = if accept s then [d.opcode] else [] := by
  rw [pendingOpcodes, clockEdge_core, edgeCore_of_low h.2]
  cases ha : accept s <;> simp [nextPipe, nopFlag, ha]

/-- The opcode latched in a cycle is a slice of the head word, so it fits its field. -/
theorem opcode_clockEdge_lt {s : State} (h : RunsFree s) (e : CommandEffect) :
    (clockEdge s (headFields s) e).core.pipe.opcode < 2 ^ s.cfg.layout.opcode.width := by
  rw [clockEdge_core, edgeCore_of_low h.2]
  exact sliceBits_lt _ _

/-! ### The statements -/

/-- Settles O37: the edge updates both queues as the statement spells it, and counts the clock by its enable. -/
theorem edgeUpdatesQueuesAndClock : Obligations.EdgeUpdatesQueuesAndClock := fun i _ h =>
  ⟨_, _, exec_of_whole h i, clockEdge_last .., rfl, rfl, clockedEdges_clockEdge ..⟩

/-- Settles O38: the command raises no strobe, so the core's access reaches no location. -/
theorem commandsWithoutStrobeKeepMemory : Obligations.CommandsWithoutStrobeKeepMemory := by
  intro i s t hexec hw hr
  obtain ⟨hwe, hpr⟩ := effectOf_no_strobe hw hr
  exact ⟨cfg_of_exec hexec, fun b hb => readCell_of_exec_untouched hexec hb (by simp [hwe]) (by simp [hpr]),
    cc_of_exec_no_trigger hexec⟩

/-- Settles O39: an accepted WRITE reaches its address alone, an accepted RESET the cells of its regions alone, and a
command that waits reaches nothing. -/
theorem strobedCommandsKeepOtherLocations : Obligations.StrobedCommandsKeepOtherLocations := by
  intro s t a d v
  refine ⟨fun hexec => ⟨cfg_of_exec hexec, fun hl => cc_of_exec_no_trigger hexec hl rfl, fun b hb hor => ?_⟩,
    fun hexec => ⟨cfg_of_exec hexec, fun hl => cc_of_exec_no_trigger hexec hl rfl, fun b hb hor => ?_⟩⟩
  · exact readCell_of_exec_untouched hexec hb (fun hacc _ => hor.resolve_right (by simp [hacc])) fun _ => nofun
  · refine readCell_of_exec_untouched hexec hb (fun _ => nofun) fun hacc _ c hc hcb => ?_
    obtain ⟨r, hr, hlo, hhi, -⟩ := (mem_resetCells s.cfg c).1 hc
    exact hor.resolve_right (by simp [hacc]) r hr (hcb ▸ ⟨hlo, hhi⟩)

/-- Settles O40: an unclocked edge takes nothing from the clocked logic, and counts no clocked edge. -/
theorem clockedLogicHoldsWhenDisabled : Obligations.ClockedLogicHoldsWhenDisabled := by
  intro i s ev rest ws hev hoff
  refine ⟨?_, fun t hexec => ?_⟩
  · rw [exec_eq_runCommand, exec_eq_runCommand, runCommand_unclocked hev hoff]
  · obtain ⟨-, rfl⟩ := exec_eq_next.1 hexec
    rw [clockedEdges_clockEdge, hoff]
    rfl

/-- Settles O41: without a strobe the two read timings agree, and with one each reads by its own. -/
theorem readDataUnderPRD : Obligations.ReadDataUnderPRD := by
  intro s hwhole hp
  refine ⟨_, _, step_of_whole hwhole, clockEdge_last .., fun ha => ⟨?_, fun ht hla => readData_before hp _ ha ht hla⟩⟩
  rintro (ht | ⟨hw, hr⟩)
  · exact readData_after hp _ ha ht
  · exact readData_of_no_strobe hp ha hw hr

/-- Settles O42: the WRITE leaves the data at the location, the READ's cycle keeps it there, and the next cycle answers
with it. -/
theorem readAfterWriteReturnsTheData : Obligations.ReadAfterWriteReturnsTheData := by
  intro s t u w w' rest a d v d' v' hrx hwrite hread ha hm hs hls hst ht hlt hpt htu hu hfull
  have hdw : d < 2 ^ s.cfg.layout.data.width := data_lt_of_decodeWord hwrite
  obtain ⟨hexec, added, htrx⟩ := step_of_takesCommand hrx hwrite hs hst
  have hcfg : t.cfg = s.cfg := cfg_of_exec hexec
  have hwritten : readCell t.peripheral.locations a = d :=
    (readCell_of_write hexec hs hm ha hls).trans (trunc_eq_self hdw)
  rw [← hcfg] at hread ha hdw ⊢
  obtain ⟨hexec', -⟩ := step_of_takesCommand htrx hread ht htu
  have hkept : readCell u.peripheral.locations a = d :=
    (readCell_of_exec_untouched hexec' hlt (fun _ => nofun) fun _ => nofun).trans hwritten
  obtain ⟨henq, hop, haddr, hdata⟩ := answer_of_read hexec' ht hpt ha (hkept.symm ▸ hdw) hu hfull
  exact ⟨_, _, step_of_whole hu.whole, clockEdge_last .., henq, hop, haddr, hdata.trans hkept⟩

/-- Settles O43: the cycle that strobes the WRITE answers the READ, from the line as the READ's own edge left it. -/
theorem writeAfterReadKeepsTheData : Obligations.WriteAfterReadKeepsTheData := by
  intro s t w w' rest a d v b d' v' hrx hread hwrite ha hcells hs hps hst ht
  obtain ⟨hexec, added, htrx⟩ := step_of_takesCommand hrx hread hs hst
  have hd : readCell t.peripheral.locations a < 2 ^ s.cfg.layout.data.width := by
    obtain ⟨-, rfl⟩ := exec_eq_next.1 hexec
    exact readCell_lt s.cfg a (cellsInRange_edgeLocations s.cfg _ _ hcells)
  obtain ⟨henq, -, -, hdata⟩ := answer_of_read hexec hs hps ha hd ht.1 ht.2.2
  refine ⟨_, _, step_of_whole ht.whole, clockEdge_last .., henq, ?_, hdata⟩
  rw [outputsOf_pWriteEnable, accept_of_takesCommand ht, (head_of_rx htrx).2, cfg_of_exec hexec, hwrite]
  rfl

/-- Settles O53: the reset's one region is the whole address space, so it clears every location; without it a write
changes the location it addresses and no other; the line takes the old item. -/
theorem referencePeripheralEdge : Obligations.ReferencePeripheralEdge := by
  refine ⟨⟨rfl, rfl, rfl, fun _ => rfl⟩, ?_⟩
  intro s hwhole ht hloc hreg hm hp hla
  have haddr : (headFields s).address < s.cfg.locations := hloc ▸ sliceBits_lt _ _
  refine ⟨_, _, step_of_whole hwhole, clockEdge_last .., readData_before hp _ haddr ht (hla _), fun a ha => ?_⟩
  refine (readCell_edgeLocations hm (hla a)).trans ?_
  rw [← hloc] at hreg
  split_ifs with hr hw
  · exact (readCell_edgeAccess_of_reset s.cfg hr hm ha ⟨(a, 0), (mem_resetCells_of_whole hreg _).2 ⟨ha, rfl⟩, rfl⟩
      fun c hc _ => ((mem_resetCells_of_whole hreg c).1 hc).2).trans (Nat.zero_mod _)
  · obtain ⟨hw, rfl⟩ := hw
    exact (readCell_edgeAccess_of_write s.cfg hw (by simpa using hr) hm ha).trans (trunc_eq_self (sliceBits_lt _ _))
  · exact readCell_edgeAccess_of_untouched s.cfg (fun hwe ha => hw ⟨hwe, ha⟩) (fun hr' => absurd hr' hr) _

/-- Settles O35, by induction on the cycles shown: each answers the command pending before it, and what it accepts is
pending after it. -/
theorem responsesFollowCommandsInOrder : Obligations.ResponsesFollowCommandsInOrder := by
  intro obs
  induction obs with
  | nil =>
    intro s t _ hrun
    obtain rfl : s = t := hrun
    exact List.append_nil _
  | cons ob obs ih =>
    intro s t hop hrun
    obtain ⟨u, ⟨hfree, hptx⟩, hstep, hlast, hrest⟩ := hrun
    obtain ⟨-, rfl⟩ := step_eq_next.1 hstep
    obtain rfl := Option.some.inj hlast
    have hrec := ih _ t (opcode_clockEdge_lt hfree _) hrest
    rw [pendingOpcodes_clockEdge hfree] at hrec
    rw [acceptedOpcodes_cons, answeredOpcodes_cons, List.append_assoc]
    exact congrArg₂ (· ++ ·) (answered_eq_pending hfree hptx hop).symm hrec

end Sys2Proof.Machine

/-!
PROOFS. The statements of 30_encoding.md: the codec bit by bit, the class of an opcode, the commands and their words,
and the fields that a command ignores.
-/

namespace Sys2Proof

/-! ### Slices and slots (30_encoding.md rules R61, R63, R64) -/

/-- From `lo` upward, the bits below `lo + width` are those up to `hi`. -/
theorem BitRange.lt_lo_add_width {r : BitRange} {i : Nat} (h : r.lo ≤ i) : i < r.lo + r.width ↔ i ≤ r.hi := by
  unfold BitRange.width
  omega

theorem placeBits_eq_mul (r : BitRange) (v : Nat) : placeBits r v = v % 2 ^ r.width * 2 ^ r.lo :=
  Nat.shiftLeft_eq _ _

/-- The bits of a placed value lie between the bounds of its range. -/
theorem testBit_placeBits_bounds (r : BitRange) (v i : Nat) :
    (placeBits r v).testBit i = (decide (r.lo ≤ i ∧ i ≤ r.hi) && v.testBit (i - r.lo)) := by
  rw [testBit_placeBits]
  by_cases hlo : r.lo ≤ i
  · simp only [hlo, BitRange.lt_lo_add_width hlo, decide_true, Bool.true_and, true_and]
  · simp [hlo]

theorem testBit_placeBits_outside {r : BitRange} {i : Nat} (h : ¬(r.lo ≤ i ∧ i ≤ r.hi)) (v : Nat) :
    (placeBits r v).testBit i = false := by
  rw [testBit_placeBits_bounds, decide_eq_false h, Bool.false_and]

/-- The bits of a slot full of ones are those of its range. -/
theorem testBit_placeBits_ones (r : BitRange) (i : Nat) :
    (placeBits r (2 ^ r.width - 1)).testBit i = true ↔ r.lo ≤ i ∧ i ≤ r.hi := by
  simp only [testBit_placeBits_bounds, Nat.testBit_two_pow_sub_one, Bool.and_eq_true, decide_eq_true_eq,
    and_iff_left_iff_imp]
  rintro ⟨hlo, hhi⟩
  have hi := (BitRange.lt_lo_add_width hlo).2 hhi
  omega

/-- A slice put back in its place is the word without the bits outside the range. -/
theorem placeBits_sliceBits (w : Nat) (r : BitRange) :
    placeBits r (sliceBits w r) = w &&& placeBits r (2 ^ r.width - 1) := by
  refine Nat.eq_of_testBit_eq fun i => ?_
  rw [Nat.testBit_and, testBit_placeBits, testBit_placeBits, testBit_sliceBits, Nat.testBit_two_pow_sub_one]
  by_cases hlo : r.lo ≤ i
  · rw [Nat.add_sub_cancel' hlo]
    ac_rfl
  · simp [hlo]

/-- A slice depends on the bits of its range alone. -/
theorem sliceBits_congr {w w' : Nat} {r : BitRange}
    (h : ∀ i, r.lo ≤ i → i ≤ r.hi → w.testBit i = w'.testBit i) : sliceBits w r = sliceBits w' r := by
  refine Nat.eq_of_testBit_eq fun i => ?_
  rw [testBit_sliceBits, testBit_sliceBits]
  by_cases hi : i < r.width
  · have hlo : r.lo ≤ r.lo + i := Nat.le_add_right _ _
    rw [h _ hlo ((BitRange.lt_lo_add_width hlo).1 (by omega))]
  · simp [hi]

/-! ### The codec (30_encoding.md rule R65) -/

/-- Every field within its width (30_encoding.md rule R65 (1)). -/
structure Decoded.Fits (l : Layout) (d : Decoded) : Prop where
  opcode : d.opcode < 2 ^ l.opcode.width
  address : d.address < 2 ^ l.address.width
  data : d.data < 2 ^ l.data.width
  value : d.value < 2 ^ l.value.width

theorem decodeFields_fits (l : Layout) (w : Word) : (decodeFields l w).Fits l :=
  ⟨sliceBits_lt _ _, sliceBits_lt _ _, sliceBits_lt _ _, sliceBits_lt _ _⟩

/-- Encoding what was decoded keeps the bits under the mask. -/
theorem encodeFields_decodeFields (l : Layout) (w : Word) :
    encodeFields l (decodeFields l w) = w &&& fieldMask l := by
  simp only [encodeFields, decodeFields, fieldMask, placeBits_sliceBits, Nat.and_or_distrib_left]

/-- In a well-formed layout the slots share no bit, so OR adds them (30_encoding.md rule R64). -/
theorem encodeFields_eq_add {l : Layout} (h : l.wf = true) (d : Decoded) :
    encodeFields l d =
      placeBits l.opcode d.opcode + placeBits l.address d.address + placeBits l.data d.data +
        placeBits l.value d.value := by
  have p := Layout.parts h
  have hoa := placeBits_and_disjoint (BitRange.disjoint_bits p.opcode p.address p.opcode_address) d.opcode d.address
  have hod := placeBits_and_disjoint (BitRange.disjoint_bits p.opcode p.data p.opcode_data) d.opcode d.data
  have hov := placeBits_and_disjoint (BitRange.disjoint_bits p.opcode p.value p.opcode_value) d.opcode d.value
  have had := placeBits_and_disjoint (BitRange.disjoint_bits p.address p.data p.address_data) d.address d.data
  have hav := placeBits_and_disjoint (BitRange.disjoint_bits p.address p.value p.address_value) d.address d.value
  have hdv := placeBits_and_disjoint (BitRange.disjoint_bits p.data p.value p.data_value) d.data d.value
  have hdata : (placeBits l.opcode d.opcode ||| placeBits l.address d.address) &&& placeBits l.data d.data = 0 := by
    rw [Nat.and_or_distrib_right, hod, had, Nat.or_self]
  have hvalue : (placeBits l.opcode d.opcode ||| placeBits l.address d.address ||| placeBits l.data d.data) &&&
      placeBits l.value d.value = 0 := by
    rw [Nat.and_or_distrib_right, Nat.and_or_distrib_right, hov, hav, hdv, Nat.or_self, Nat.or_self]
  rw [encodeFields, or_eq_add_of_and_eq_zero hvalue, or_eq_add_of_and_eq_zero hdata, or_eq_add_of_and_eq_zero hoa]

/-! ### The class of an opcode (30_encoding.md rule R68) -/

/-- The opcode value `op` stands for the class. -/
def Opcodes.Names (o : Opcodes) (op : Nat) : CommandClass → Prop
  | .read => op = o.read
  | .write => op = o.write
  | .reset => op = o.reset
  | .step => op = o.step
  | .start => op = o.start
  | .pause => op = o.pause
  | .status => op = o.status
  | .nop => op ∉ o.toList

theorem names_classOf (o : Opcodes) (op : Nat) : o.Names op (classOf o op) := by
  have h := classOf_spec o op
  cases hc : classOf o op <;> rw [hc] at h <;> exact h

/-- With seven distinct values, each value stands for one class. -/
theorem classOf_of_names {o : Opcodes} (h : o.toList.Nodup) {op : Nat} {c : CommandClass} (hc : o.Names op c) :
    classOf o op = c := by
  simp only [Opcodes.toList, List.nodup_cons, List.mem_cons, not_or] at h
  cases c with
  | nop =>
    simp only [Opcodes.Names, Opcodes.toList, List.mem_cons, not_or] at hc
    simp [classOf, hc]
  | read | write | reset | step | start | pause | status =>
    obtain rfl : op = _ := hc
    simp [classOf, h, eq_comm]

theorem classOf_eq_iff {o : Opcodes} (h : o.toList.Nodup) (op : Nat) (c : CommandClass) :
    classOf o op = c ↔ o.Names op c :=
  ⟨fun hc => hc ▸ names_classOf o op, classOf_of_names h⟩

theorem Config.opcodes_nodup {cfg : Config} (h : cfg.wf = true) : cfg.opcodes.toList.Nodup :=
  of_decide_eq_true (Bool.and_eq_true_iff.1 (Config.opcodes_wf h)).2

theorem Config.opcode_lt {cfg : Config} (h : cfg.wf = true) {op : Nat} (hop : op ∈ cfg.opcodes.toList) :
    op < 2 ^ cfg.layout.opcode.width :=
  of_decide_eq_true (List.all_eq_true.1 (Bool.and_eq_true_iff.1 (Config.opcodes_wf h)).1 op hop)

/-! ### Commands and their fields (30_encoding.md rules R65, R68, R70) -/

/-- The row of the opcode table that a command belongs to. -/
def Instr.commandClass : Instr → CommandClass
  | .read _ _ _ => .read
  | .write _ _ _ => .write
  | .reset _ _ _ => .reset
  | .step _ _ _ => .step
  | .start _ _ _ => .start
  | .pause _ _ _ => .pause
  | .status _ _ _ => .status
  | .nop _ _ _ _ => .nop

theorem commandClass_commandOf (o : Opcodes) (d : Decoded) : (commandOf o d).commandClass = classOf o d.opcode := by
  unfold commandOf
  cases classOf o d.opcode <;> rfl

/-- The fields of a command stand for that command, if its opcode stands for its class. -/
theorem commandOf_fieldsOf {o : Opcodes} (h : o.toList.Nodup) {i : Instr}
    (hi : o.Names (fieldsOf o i).opcode i.commandClass) : commandOf o (fieldsOf o i) = i := by
  rw [commandOf, classOf_of_names h hi]
  cases i <;> rfl

theorem Decoded.fits_iff (l : Layout) (d : Decoded) :
    d.Fits l ↔ d.opcode < 2 ^ l.opcode.width ∧ l.operandsFit d.address d.data d.value = true := by
  simp only [Layout.operandsFit, Bool.and_eq_true, decide_eq_true_eq]
  constructor
  · rintro ⟨hop, haddr, hdata, hval⟩
    exact ⟨hop, ⟨haddr, hdata⟩, hval⟩
  · rintro ⟨hop, ⟨haddr, hdata⟩, hval⟩
    exact ⟨hop, haddr, hdata, hval⟩

/-- A command is well-formed if its fields fit and its opcode stands for its class; that of a recognized command always
does. -/
theorem Instr.wf_iff {cfg : Config} (h : cfg.wf = true) (i : Instr) :
    i.wf cfg = true ↔
      (fieldsOf cfg.opcodes i).Fits cfg.layout ∧
        cfg.opcodes.Names (fieldsOf cfg.opcodes i).opcode i.commandClass := by
  cases i with
  | nop op a d v =>
    simp only [Instr.wf, Decoded.fits_iff, fieldsOf, Opcodes.Names, Instr.commandClass, Bool.and_eq_true,
      decide_eq_true_eq, Bool.not_eq_true', List.contains_eq_mem, decide_eq_false_iff_not, and_comm]
  | read a d v | write a d v | reset a d v | step a d v | start a d v | pause a d v | status a d v =>
    simp only [Instr.wf, Decoded.fits_iff, fieldsOf, Opcodes.Names, Instr.commandClass, and_true]
    exact (and_iff_right (Config.opcode_lt h (by simp [Opcodes.toList]))).symm

end Sys2Proof

namespace Sys2Proof.Machine

/-! ### The covered bits (30_encoding.md rules R61, R65) -/

theorem covered_iff (l : Layout) (i : Nat) :
    Covered l i ↔ (l.opcode.lo ≤ i ∧ i ≤ l.opcode.hi) ∨ (l.address.lo ≤ i ∧ i ≤ l.address.hi) ∨
      (l.data.lo ≤ i ∧ i ≤ l.data.hi) ∨ (l.value.lo ≤ i ∧ i ≤ l.value.hi) := by
  simp [Covered]

theorem testBit_fieldMask (l : Layout) (i : Nat) : (fieldMask l).testBit i = true ↔ Covered l i := by
  simp only [fieldMask, encodeFields, Nat.testBit_or, Bool.or_eq_true, testBit_placeBits_ones, covered_iff, or_assoc]

/-- Where the fields cover the whole word, the mask takes nothing from it. -/
theorem and_fieldMask_of_covered {l : Layout} {w : Word} (hw : w < 2 ^ l.wordWidth)
    (hcov : ∀ i < l.wordWidth, Covered l i) : w &&& fieldMask l = w := by
  refine Nat.eq_of_testBit_eq fun i => ?_
  rw [Nat.testBit_and]
  by_cases hi : i < l.wordWidth
  · rw [(testBit_fieldMask l i).2 (hcov i hi), Bool.and_true]
  · have hbit : w.testBit i = false :=
      Nat.testBit_lt_two_pow (hw.trans_le (Nat.pow_le_pow_right (by omega) (by omega)))
    rw [hbit, Bool.false_and]

/-- Decoding looks at the covered bits alone (30_encoding.md rule R61). -/
theorem decodeFields_congr_of_covered {l : Layout} {w w' : Word}
    (h : ∀ i, Covered l i → w.testBit i = w'.testBit i) : decodeFields l w = decodeFields l w' := by
  have hslice : ∀ r ∈ [l.opcode, l.address, l.data, l.value], sliceBits w r = sliceBits w' r :=
    fun r hr => sliceBits_congr fun i hlo hhi => h i ⟨r, hr, hlo, hhi⟩
  simp only [List.forall_mem_cons] at hslice
  obtain ⟨hop, haddr, hdata, hval, -⟩ := hslice
  simp only [decodeFields, hop, haddr, hdata, hval]

/-- Encoding sets covered bits alone (30_encoding.md rule R61). -/
theorem testBit_encodeFields_of_not_covered {l : Layout} {i : Nat} (h : ¬Covered l i) (d : Decoded) :
    (encodeFields l d).testBit i = false := by
  simp only [covered_iff, not_or] at h
  obtain ⟨hop, haddr, hdata, hval⟩ := h
  simp only [encodeFields, Nat.testBit_or, testBit_placeBits_outside hop, testBit_placeBits_outside haddr,
    testBit_placeBits_outside hdata, testBit_placeBits_outside hval, Bool.or_self]

/-- The round trip: no field that fits is cut. -/
theorem decodeFields_encodeFields_of_fits {l : Layout} (h : l.wf = true) {d : Decoded} (hd : d.Fits l) :
    decodeFields l (encodeFields l d) = d := by
  rw [decodeFields_encodeFields h, trunc_eq_self hd.opcode, trunc_eq_self hd.address, trunc_eq_self hd.data,
    trunc_eq_self hd.value]

/-! ### A field that a command ignores (30_encoding.md rule R67) -/

/-- Cycle Control takes up the step count of a STEP alone. -/
theorem ccNext_congr_of_ne_step {t : Trigger} (h : t ≠ .step) (cfg : Config) (cc : CycleControl) (n n' : Nat) :
    ccNext cfg cc t n = ccNext cfg cc t n' := by
  cases t with
  | step => exact absurd rfl h
  | none => simp only [ccNext_none]
  | start => rfl
  | pause => cases hm : cc.mode <;> simp only [ccNext, hm]

/-- The core takes the opcode, the address and, in a STEP, the step count from the fields. -/
theorem edgeCore_congr {s : State} {d d' : Decoded} {e : CommandEffect} (hop : d.opcode = d'.opcode)
    (haddr : d.address = d'.address) (hval : e.trigger = .step → d.value = d'.value) :
    edgeCore s d e = edgeCore s d' e := by
  have hcc : nextCc s d e = nextCc s d' e := by
    by_cases ht : e.trigger = .step
    · simp only [nextCc, stepOperand, hval ht]
    · refine ccNext_congr_of_ne_step ?_ _ _ _ _
      unfold gatedTrigger
      split
      · exact ht
      · nofun
  simp only [edgeCore, nextPipe, addressOperand, hcc, hop, haddr]

/-- Without the write strobe the peripheral does not look at the write-data line. -/
theorem edgePeripheral_congr_of_no_write {o : Outputs} (h : o.pWriteEnable = false) (x : Nat) (cfg : Config)
    (ev : Event) (cycle : Nat) (p : Peripheral) :
    edgePeripheral cfg ev { o with pWriteData := x } cycle p = edgePeripheral cfg ev o cycle p := by
  simp [edgePeripheral, edgeReadData, latchedLocations, edgeLocations, edgeAccess, h]

/-- Of the outputs, the address and write-data lines alone depend on the fields. -/
theorem outputsOf_congr {d d' : Decoded} (haddr : d.address = d'.address) (s : State) (e : CommandEffect) :
    outputsOf s d e = { outputsOf s d' e with pWriteData := d.data } := by
  simp only [outputsOf, addressOperand, dataOperand, haddr]

/-- Fields with one address, and one data if the command is a WRITE, leave one peripheral. -/
theorem peripheral_clockEdge_congr {d d' : Decoded} {e : CommandEffect} (haddr : d.address = d'.address)
    (hdata : e.writeEnable = true → d.data = d'.data) (s : State) :
    (clockEdge s d e).peripheral = (clockEdge s d' e).peripheral := by
  rw [clockEdge_peripheral, clockEdge_peripheral, outputsOf_congr haddr]
  by_cases hw : e.writeEnable = true
  · rw [hdata hw]
    rfl
  · exact edgePeripheral_congr_of_no_write (by simp [hw]) _ _ _ _ _

/-- Two commands with one effect, opcode and address do the same but for the write-data line, if a WRITE's data and a
STEP's count are the same. -/
theorem agreeButForWriteData_of {s : State} (h : WholeCycle s) {i j : Instr} (he : effectOf i = effectOf j)
    (hop : (fieldsOf s.cfg.opcodes i).opcode = (fieldsOf s.cfg.opcodes j).opcode)
    (haddr : (fieldsOf s.cfg.opcodes i).address = (fieldsOf s.cfg.opcodes j).address)
    (hdata : (effectOf i).writeEnable = true →
      (fieldsOf s.cfg.opcodes i).data = (fieldsOf s.cfg.opcodes j).data)
    (hval : (effectOf i).trigger = .step → (fieldsOf s.cfg.opcodes i).value = (fieldsOf s.cfg.opcodes j).value) :
    AgreeButForWriteData i j s := by
  refine ⟨_, _, exec_of_whole h i, exec_of_whole h j, ?_⟩
  rw [← he]
  refine ⟨edgeCore_congr hop haddr hval, ?_, ?_, peripheral_clockEdge_congr haddr hdata s, rfl, ?_⟩
  · rw [clockEdge_rx, outputsOf_congr haddr]
    rfl
  · rw [clockEdge_tx, outputsOf_congr haddr]
    rfl
  · rw [clockEdge_last, outputsOf_congr haddr]
    rfl

/-! ### The statements -/

/-- Settles O3: the three laws, each from the lemma that says it of all fields at once. -/
theorem codecRoundTripsAndTruncates : Obligations.CodecRoundTripsAndTruncates := fun l h =>
  ⟨fun _ hop haddr hdata hval => decodeFields_encodeFields_of_fits h ⟨hop, haddr, hdata, hval⟩,
    decodeFields_encodeFields h, testBit_fieldMask l, encodeFields_decodeFields l,
    fun w hw hcov => (encodeFields_decodeFields l w).trans (and_fieldMask_of_covered hw hcov)⟩

/-- Settles O4: the word gives the fields back, and the fields stand for the command. -/
theorem commandWordRoundTrips : Obligations.CommandWordRoundTrips := by
  intro cfg i h hi
  obtain ⟨hfits, hnames⟩ := (Instr.wf_iff h i).1 hi
  have hl := Config.layout_wf h
  have hdecode : decodeWord cfg (encode cfg i) = i := by
    rw [decodeWord, encode, decodeFields_encodeFields_of_fits hl hfits,
      commandOf_fieldsOf (Config.opcodes_nodup h) hnames]
  exact ⟨hdecode, (if_pos (encodeFields_lt hl _)).trans (congrArg Except.ok hdecode)⟩

/-- Settles O5: the fields of a word fit, the command has the word's class, and its fields are the word's. -/
theorem everyWordIsACommand : Obligations.EveryWordIsACommand := by
  intro cfg w h
  refine ⟨(Instr.wf_iff h _).2 ?_, ?_, rfl⟩
  · rw [fieldsOf_decodeWord, decodeWord, commandClass_commandOf]
    exact ⟨decodeFields_fits _ _, names_classOf _ _⟩
  · rw [encode, fieldsOf_decodeWord, encodeFields_decodeFields]

/-- Settles O6: every slice and every slot lies within the covered bits. -/
theorem unusedBitsIgnoredAndWrittenZero : Obligations.UnusedBitsIgnoredAndWrittenZero := fun _ _ =>
  ⟨fun _ _ => decodeFields_congr_of_covered, fun d _ h => testBit_encodeFields_of_not_covered h d⟩

/-- Settles O7: distinct values name one class each; the pipeline register takes the opcode as decoded. -/
theorem opcodeFieldAloneClassifies : Obligations.OpcodeFieldAloneClassifies := by
  intro cfg h
  refine ⟨fun op => ?_, fun w w' hop => congrArg (classOf cfg.opcodes) hop, ?_⟩
  · have hclass := classOf_eq_iff (Config.opcodes_nodup h) op
    exact ⟨hclass .read, hclass .write, hclass .reset, hclass .step, hclass .start, hclass .pause, hclass .status,
      hclass .nop⟩
  · rintro s rfl hfree
    refine ⟨_, step_of_whole hfree.whole, ?_⟩
    rw [clockEdge_core, edgeCore_of_low hfree.2]
    rfl

/-- Settles O18: of the eight commands WRITE alone raises the write strobe and STEP alone the step trigger, and these
keep the field concerned. -/
theorem ignoredFieldsHaveNoEffect : Obligations.IgnoredFieldsHaveNoEffect := by
  intro s op a d v d' v' h
  refine ⟨?read, ?write, ?reset, ?step, ?start, ?pause, ?status, ?nop⟩
  case write => exact agreeButForWriteData_of h rfl rfl rfl (fun _ => rfl) nofun
  case step => exact agreeButForWriteData_of h rfl rfl rfl nofun (fun _ => rfl)
  case read | reset | start | pause | status | nop => exact agreeButForWriteData_of h rfl rfl rfl nofun nofun

/-- Settles O1: each field is a slice of the word. -/
theorem decodedFieldsAreBitSlices : Obligations.DecodedFieldsAreBitSlices := fun l w i =>
  ⟨testBit_sliceBits w l.opcode i, testBit_sliceBits w l.address i, testBit_sliceBits w l.data i,
    testBit_sliceBits w l.value i⟩

/-- Settles O2: the slots share no bit, and each is the value cut to its width and shifted to its place. -/
theorem encodedWordIsTheSumOfItsSlots : Obligations.EncodedWordIsTheSumOfItsSlots := by
  intro l d h
  refine ⟨?_, encodeFields_lt h d⟩
  rw [encodeFields_eq_add h]
  simp only [placeBits_eq_mul]

end Sys2Proof.Machine

/-!
PROOFS. The statements of 40_command_control.md: acceptance, the lines and the strobes toward the peripheral, the
pipeline register, and the peripheral commands from their EX cycle to their answer.
-/

namespace Sys2Proof.Machine

/-! ### The strobes of the head command (40_command_control.md rule R104) -/

/-- An opcode stands for at most one class, the seven values being distinct. -/
theorem class_unique {o : Opcodes} (h : o.toList.Nodup) {op : Nat} {c c' : CommandClass} (hc : o.Names op c)
    (hc' : o.Names op c') : c = c' :=
  (classOf_of_names h hc).symm.trans (classOf_of_names h hc')

/-- A strobe that an accepted command raises by its class `c` is high exactly in the accepted cycles of an opcode that
stands for `c`. -/
theorem strobe_head {s : State} (h : s.cfg.wf = true) {c : CommandClass} {b : Bool}
    (hb : accept s = true → b = (classOf s.cfg.opcodes (headFields s).opcode == c)) :
    (accept s && b) = true ↔ accept s = true ∧ s.cfg.opcodes.Names (headFields s).opcode c := by
  rw [Bool.and_eq_true]
  refine and_congr_right fun ha => ?_
  rw [hb ha, beq_iff_eq, classOf_eq_iff (Config.opcodes_nodup h)]

theorem pWriteEnable_head {s : State} (h : s.cfg.wf = true) :
    (outputsOf s (headFields s) (headEffect s)).pWriteEnable = true ↔
      accept s = true ∧ (headFields s).opcode = s.cfg.opcodes.write :=
  strobe_head h (c := .write) fun ha => (headEffect_of_accept ha).1

theorem pReset_head {s : State} (h : s.cfg.wf = true) :
    (outputsOf s (headFields s) (headEffect s)).pReset = true ↔
      accept s = true ∧ (headFields s).opcode = s.cfg.opcodes.reset :=
  strobe_head h (c := .reset) fun ha => (headEffect_of_accept ha).2.1

/-! ### A cycle that accepts nothing (40_command_control.md rule R107) -/

theorem strobes_of_not_accept {s : State} (h : accept s = false) (d : Decoded) (e : CommandEffect) :
    (outputsOf s d e).pWriteEnable = false ∧ (outputsOf s d e).pReset = false := by
  simp [h]

/-- With no command in the pipeline register the next cycle answers nothing (42_response_compose.md rule R160). -/
theorem txEnqueue_step_of_nop {t u : State} {ob : Observation} (hn : t.core.pipe.nop = true)
    (hstep : step t = .next u) (hlast : u.last = some ob) : ob.outputs.txEnqueue = false := by
  obtain ⟨-, rfl⟩ := step_eq_next.1 hstep
  obtain rfl := Option.some.inj hlast
  exact txEnqueue_of_nop hn

/-! ### The EX cycle of an accepted command (40_command_control.md rules R100, R106) -/

theorem last_of_exec {i : Instr} {s t : State} (hexec : exec i s = .next t) (h : TakesCommand s) :
    t.last = some ⟨inputsOf s,
      ⟨true, (fieldsOf s.cfg.opcodes i).address, (fieldsOf s.cfg.opcodes i).data, (effectOf i).writeEnable,
        (effectOf i).periphReset, clockEnable s.core.cc, txEnqueue s, responseWord s⟩, losesResponse s⟩ := by
  obtain ⟨-, rfl⟩ := exec_eq_next.1 hexec
  exact last_of_takesCommand h _ _

/-- The pipeline register takes the command, with the count after the edge. -/
theorem pipe_of_exec {i : Instr} {s t : State} (hexec : exec i s = .next t) (h : TakesCommand s) :
    t.core.pipe = ⟨false, (fieldsOf s.cfg.opcodes i).opcode, (fieldsOf s.cfg.opcodes i).address,
      t.core.cc.remainingSteps⟩ := by
  obtain ⟨-, rfl⟩ := exec_eq_next.1 hexec
  rw [clockEdge_core, edgeCore_of_takesCommand h]

/-- A command without a trigger is in the pipeline after its cycle, and Cycle Control has only counted. -/
theorem core_of_exec_no_trigger {i : Instr} {s t : State} (hexec : exec i s = .next t) (h : TakesCommand s)
    (ht : commandTrigger i = .none) :
    t.core = ⟨⟨false, (fieldsOf s.cfg.opcodes i).opcode, (fieldsOf s.cfg.opcodes i).address,
      (countDown s.core.cc).remainingSteps⟩, countDown s.core.cc⟩ := by
  rw [← cc_of_exec_no_trigger hexec h.1.2 ht, ← pipe_of_exec hexec h]

/-! ### What the command leaves at the peripheral (20_memory.md rules R42, R44) -/

/-- After an accepted command without a strobe the line carries the content of the location addressed, under P_RD. -/
theorem readData_of_exec_no_strobe {i : Instr} {s t : State} (hexec : exec i s = .next t)
    (hw : (effectOf i).writeEnable = false) (hr : (effectOf i).periphReset = false) (hp : PRD s)
    (ha : (fieldsOf s.cfg.opcodes i).address < s.cfg.locations) :
    t.peripheral.readData = readCell t.peripheral.locations (fieldsOf s.cfg.opcodes i).address := by
  obtain ⟨-, rfl⟩ := exec_eq_next.1 hexec
  exact readData_of_no_strobe hp ha (by simp [hw]) (by simp [hr])

/-- After an accepted RESET a location of a region holds the regions' value, if those that have it agree on one. -/
theorem readCell_of_reset {s t : State} {a d v b x : Nat} (hexec : exec (.reset a d v) s = .next t)
    (h : TakesCommand s) (hm : memoryWf s.peripheral.locations = true) (hb : b < s.cfg.locations)
    (hla : LeavesAlone s b) (hmem : ∃ r ∈ s.cfg.resetRegions, r.base ≤ b ∧ b < r.base + r.size)
    (hval : ∀ r ∈ s.cfg.resetRegions, r.base ≤ b → b < r.base + r.size → r.value = x) :
    readCell t.peripheral.locations b = trunc s.cfg.layout.data.width x := by
  obtain ⟨-, rfl⟩ := exec_eq_next.1 hexec
  refine (readCell_edgeLocations hm hla).trans (readCell_edgeAccess_of_reset s.cfg ?_ hm hb ?_ fun c hc hcb => ?_)
  · simp [accept_of_takesCommand h, effectOf]
  · obtain ⟨r, hr, hlo, hhi⟩ := hmem
    exact ⟨(b, r.value), (mem_resetCells s.cfg _).2 ⟨r, hr, hlo, hhi, rfl⟩, rfl⟩
  · obtain ⟨r, hr, hlo, hhi, hv⟩ := (mem_resetCells s.cfg c).1 hc
    exact hv.trans (hval r hr (hcb ▸ hlo) (hcb ▸ hhi))

/-! ### The answer (42_response_compose.md rules R160 to R162) -/

/-- The fields of the answer to the command `i`, composed in the state `t` after its cycle by the row of its class. -/
def answerFields (o : Opcodes) (i : Instr) (t : State) : Decoded :=
  let p : PipelineRegister := ⟨false, (fieldsOf o i).opcode, (fieldsOf o i).address, t.core.cc.remainingSteps⟩
  ⟨p.opcode, responseAddress i.commandClass p t.cycle,
    responseData i.commandClass t.core.cc t.peripheral.readData t.cycle, responseValue i.commandClass p t.cycle⟩

theorem responseWord_of_exec {i : Instr} {s t : State} (hexec : exec i s = .next t) (h : TakesCommand s)
    (hi : s.cfg.opcodes.Names (fieldsOf s.cfg.opcodes i).opcode i.commandClass) (ht : RunsFree t) :
    responseWord t = encodeFields s.cfg.layout (answerFields s.cfg.opcodes i t) := by
  have hpipe := pipe_of_exec hexec h
  have hclass : classOf s.cfg.opcodes t.core.pipe.opcode = i.commandClass := by
    rw [hpipe]
    exact classOf_of_names (Config.opcodes_nodup h.1.1) hi
  rw [responseWord_of_low ht.2 (cfg_of_exec hexec) hclass, hpipe]
  rfl

/-- The cycle after that of an accepted command answers it. -/
theorem answersNext_of_exec {i : Instr} {s t : State} {P : Nat → Word → Prop} (hexec : exec i s = .next t)
    (h : TakesCommand s) (hi : s.cfg.opcodes.Names (fieldsOf s.cfg.opcodes i).opcode i.commandClass)
    (hP : P t.peripheral.readData (encodeFields s.cfg.layout (answerFields s.cfg.opcodes i t))) :
    AnswersNext t P :=
  answersNext_of (by rw [pipe_of_exec hexec h]) fun ht => (responseWord_of_exec hexec h hi ht).symm ▸ hP

/-! ### The statements -/

/-- Settles O24: a READ raises no strobe and no trigger, and its row of the answer carries the read-data line. -/
theorem readCompletes : Obligations.ReadCompletes := by
  intro s a d v h
  have hexec := exec_of_whole h.whole (.read a d v)
  exact ⟨_, hexec, core_of_exec_no_trigger hexec h rfl, last_of_exec hexec h,
    readData_of_exec_no_strobe hexec rfl rfl, answersNext_of_exec hexec h rfl ⟨_, rfl⟩⟩

/-- Settles O25: the write strobe of the accepted WRITE stores the data at the location addressed. -/
theorem writeCompletes : Obligations.WriteCompletes := by
  intro s a d v h
  have hexec := exec_of_whole h.whole (.write a d v)
  exact ⟨_, hexec, core_of_exec_no_trigger hexec h rfl, last_of_exec hexec h, readCell_of_write hexec h,
    answersNext_of_exec hexec h rfl ⟨_, _, rfl⟩⟩

/-- Settles O26: the reset strobe of the accepted RESET sets the cells of the configured regions. -/
theorem resetCommandCompletes : Obligations.ResetCommandCompletes := by
  intro s a d v h
  have hexec := exec_of_whole h.whole (.reset a d v)
  exact ⟨_, hexec, core_of_exec_no_trigger hexec h rfl, last_of_exec hexec h,
    fun _ _ => readCell_of_reset hexec h, answersNext_of_exec hexec h rfl ⟨_, _, rfl⟩⟩

/-- Settles O27: an opcode that is none of the seven names the NOP class, whose answer echoes it. -/
theorem implicitNopCompletes : Obligations.ImplicitNopCompletes := by
  intro s op a d v h hop
  have hexec := exec_of_whole h.whole (.nop op a d v)
  exact ⟨_, hexec, core_of_exec_no_trigger hexec h rfl, last_of_exec hexec h,
    answersNext_of_exec hexec h hop ⟨_, _, _, rfl⟩⟩

/-- Settles O13: the dequeue is the acceptance, and the edge appends to what it keeps of the queue. -/
theorem acceptanceAndDequeue : Obligations.AcceptanceAndDequeue := fun i _ h =>
  ⟨_, _, _, exec_of_whole h i, clockEdge_last .., rfl, rfl, clockEdge_rx ..⟩

/-- Settles O14: without acceptance the strobes and the trigger are gated off and the pipeline register carries no
command. -/
theorem unacceptedCycleDoesNothing : Obligations.UnacceptedCycleDoesNothing := by
  intro i s h hwait
  have hacc := accept_eq_false hwait
  have hnop := edgeCore_nop_of_not_accept hacc (fieldsOf s.cfg.opcodes i) (effectOf i)
  obtain ⟨hwrite, hreset⟩ := strobes_of_not_accept hacc (fieldsOf s.cfg.opcodes i) (effectOf i)
  refine ⟨_, _, exec_of_whole h i, clockEdge_last .., hacc, hwrite, hreset, hnop, fun hlow => ?_,
    fun _ _ => txEnqueue_step_of_nop hnop⟩
  rw [clockEdge_core, edgeCore_of_low hlow, nextCc_of_not_accept hacc, effectiveCore_of_low hlow]
  rfl

/-- Settles O16: the strobes follow the class of the head's opcode, and no opcode has two classes. -/
theorem strobesOnlyForWriteAndReset : Obligations.StrobesOnlyForWriteAndReset := by
  intro s h
  refine ⟨_, _, step_of_whole h, clockEdge_last .., pWriteEnable_head h.1, pReset_head h.1, ?_⟩
  rintro ⟨hwrite, hreset⟩
  obtain ⟨-, hopWrite⟩ := (pWriteEnable_head h.1).1 hwrite
  obtain ⟨-, hopReset⟩ := (pReset_head h.1).1 hreset
  exact nomatch class_unique (c := .write) (c' := .reset) (Config.opcodes_nodup h.1) hopWrite hopReset

/-- Settles O17: with the reset line low the register loads the head's fields, with it high the reset values. -/
theorem pipelineLoadsEveryCycle : Obligations.PipelineLoadsEveryCycle := by
  intro s h
  refine ⟨_, _, step_of_whole h, clockEdge_last .., ?_⟩
  rcases h.low_or_high with hlow | hhigh
  · simp only [clockEdge_core, edgeCore_of_low hlow, inputsOf, resetHigh_eq_false hlow]
    rfl
  · simp only [clockEdge_core, edgeCore_of_high hhigh, inputsOf, resetHigh_eq_true hhigh]
    rfl

/-- Settles O15: the fields on the two lines are slices of the word on `rxData`. -/
theorem peripheralLinesFollowHead : Obligations.PeripheralLinesFollowHead := fun _ h =>
  ⟨_, _, step_of_whole h, clockEdge_last .., outputsOf_pAddr .., outputsOf_pWriteData ..⟩

end Sys2Proof.Machine

/-!
PROOFS. The statements of 41_cycle_control.md: the clock enable, the next cycle-control state, the snapshot, the cycle
commands from their EX cycle to their answer, and the experiment's clock over several cycles.
-/

namespace Sys2Proof.Machine

/-! ### The clock enable (rule R130) -/

theorem clockEnable_iff (cc : CycleControl) :
    clockEnable cc = true ↔ cc.mode = .autonomous ∨ (cc.mode = .manual ∧ cc.remainingSteps ≠ 0) := by
  simp [clockEnable]

theorem clockEnable_of_autonomous {cc : CycleControl} (h : cc.mode = .autonomous) : clockEnable cc = true :=
  (clockEnable_iff cc).2 (.inl h)

theorem clockEnable_manual_iff (n : Nat) : clockEnable ⟨.manual, n⟩ = true ↔ n ≠ 0 := by
  simp [clockEnable_iff]

/-! ### The counting arm (rule R132) -/

theorem countDown_manual (n : Nat) : countDown ⟨.manual, n⟩ = ⟨.manual, n - 1⟩ := by
  cases n <;> rfl

theorem countDown_of_manual {cc : CycleControl} (h : cc.mode = .manual) :
    countDown cc = ⟨.manual, cc.remainingSteps - 1⟩ := by
  obtain ⟨m, n⟩ := cc
  obtain rfl : m = .manual := h
  exact countDown_manual n

theorem countDown_of_autonomous {cc : CycleControl} (h : cc.mode = .autonomous) : countDown cc = cc := by
  simp [countDown, h]

theorem countDown_mode (cc : CycleControl) : (countDown cc).mode = cc.mode := by
  cases h : cc.mode with
  | manual => rw [countDown_of_manual h]
  | autonomous => rw [countDown_of_autonomous h, h]

theorem countDown_remainingSteps_le (cc : CycleControl) :
    (countDown cc).remainingSteps ≤ cc.remainingSteps := by
  cases h : cc.mode with
  | manual =>
    rw [countDown_of_manual h]
    exact Nat.sub_le _ _
  | autonomous => rw [countDown_of_autonomous h]

/-! ### The STEP arm (rule R131, `STEP_REARM`) -/

theorem stepLoad_mode (cfg : Config) (cc : CycleControl) (n : Nat) : (stepLoad cfg cc n).mode = .manual := by
  unfold stepLoad
  split
  · rfl
  · split <;> rfl

theorem stepLoad_of_load {cfg : Config} {cc : CycleControl} (h : cc.remainingSteps = 0 ∨ cfg.stepRearm = .reload)
    (n : Nat) : stepLoad cfg cc n = ⟨.manual, n⟩ := by
  rcases h with h | h <;> simp [stepLoad, h]

theorem stepLoad_of_ignore {cfg : Config} {cc : CycleControl} (hk : cc.remainingSteps ≠ 0)
    (h : cfg.stepRearm = .ignore) (n : Nat) : stepLoad cfg cc n = ⟨.manual, cc.remainingSteps - 1⟩ := by
  simp [stepLoad, hk, h]

theorem stepLoad_of_extend {cfg : Config} {cc : CycleControl} (hk : cc.remainingSteps ≠ 0)
    (h : cfg.stepRearm = .extend) (n : Nat) :
    stepLoad cfg cc n = ⟨.manual, min (cc.remainingSteps - 1 + n) (2 ^ cfg.layout.value.width - 1)⟩ := by
  simp [stepLoad, hk, h]

theorem stepLoad_eq_ite (cfg : Config) (cc : CycleControl) (n : Nat) :
    stepLoad cfg cc n =
      if cc.remainingSteps = 0 ∨ cfg.stepRearm = .reload then ⟨.manual, n⟩
      else if cfg.stepRearm = .ignore then ⟨.manual, cc.remainingSteps - 1⟩
      else ⟨.manual, min (cc.remainingSteps - 1 + n) (2 ^ cfg.layout.value.width - 1)⟩ := by
  split_ifs with hload hignore
  · exact stepLoad_of_load hload n
  · exact stepLoad_of_ignore (not_or.1 hload).1 hignore n
  · obtain ⟨hk, hreload⟩ := not_or.1 hload
    refine stepLoad_of_extend hk ?_ n
    cases h : cfg.stepRearm with
    | reload => exact absurd h hreload
    | ignore => exact absurd h hignore
    | extend => rfl

/-! ### The next cycle-control state (rules R131, R133, R134) -/

@[simp] theorem ccNext_start (cfg : Config) (cc : CycleControl) (n : Nat) :
    ccNext cfg cc .start n = ⟨.autonomous, 0⟩ := rfl

theorem ccNext_step_of_manual {cc : CycleControl} (h : cc.mode = .manual) (cfg : Config) (n : Nat) :
    ccNext cfg cc .step n = stepLoad cfg cc n := by
  simp only [ccNext, h]

theorem ccNext_step_of_autonomous {cc : CycleControl} (h : cc.mode = .autonomous) (cfg : Config) (n : Nat) :
    ccNext cfg cc .step n = cc := by
  simp only [ccNext, h, countDown_of_autonomous h]

theorem ccNext_pause_of_manual {cc : CycleControl} (h : cc.mode = .manual) (cfg : Config) (n : Nat) :
    ccNext cfg cc .pause n = countDown cc := by
  simp only [ccNext, h]

theorem ccNext_pause_of_autonomous {cc : CycleControl} (h : cc.mode = .autonomous) (cfg : Config) (n : Nat) :
    ccNext cfg cc .pause n = ⟨.manual, 0⟩ := by
  simp only [ccNext, h]

/-- In MANUAL mode only START and STEP replace the counting arm. -/
theorem ccNext_of_manual {cc : CycleControl} (h : cc.mode = .manual) {t : Trigger} (hstart : t ≠ .start)
    (hstep : t ≠ .step) (cfg : Config) (n : Nat) : ccNext cfg cc t n = countDown cc := by
  cases t with
  | none => exact ccNext_none cfg cc n
  | pause => exact ccNext_pause_of_manual h cfg n
  | start => exact absurd rfl hstart
  | step => exact absurd rfl hstep

/-- In AUTONOMOUS mode only START and PAUSE do anything. -/
theorem ccNext_of_autonomous {cc : CycleControl} (h : cc.mode = .autonomous) {t : Trigger} (hstart : t ≠ .start)
    (hpause : t ≠ .pause) (cfg : Config) (n : Nat) : ccNext cfg cc t n = cc := by
  cases t with
  | none => rw [ccNext_none, countDown_of_autonomous h]
  | step => exact ccNext_step_of_autonomous h cfg n
  | start => exact absurd rfl hstart
  | pause => exact absurd rfl hpause

/-- The next state as rule R131 lists it: the first line whose condition holds. -/
theorem ccNext_eq_ite (cfg : Config) (cc : CycleControl) (t : Trigger) (n : Nat) :
    ccNext cfg cc t n =
      if t = .start then ⟨.autonomous, 0⟩
      else if t = .pause ∧ cc.mode = .autonomous then ⟨.manual, 0⟩
      else if t = .step ∧ cc.mode = .manual then stepLoad cfg cc n
      else countDown cc := by
  split_ifs with hstart hpause hstep
  · rw [hstart, ccNext_start]
  · obtain ⟨rfl, hm⟩ := hpause
    exact ccNext_pause_of_autonomous hm cfg n
  · obtain ⟨rfl, hm⟩ := hstep
    exact ccNext_step_of_manual hm cfg n
  · cases hm : cc.mode with
    | manual => exact ccNext_of_manual hm hstart (fun ht => hstep ⟨ht, hm⟩) cfg n
    | autonomous =>
      rw [ccNext_of_autonomous hm hstart (fun ht => hpause ⟨ht, hm⟩), countDown_of_autonomous hm]

/-- AUTONOMOUS is entered with a count of 0 and loads none (rule R134 (1)). -/
theorem ccNext_autonomous_idle {cc : CycleControl} (h : cc.mode = .autonomous → cc.remainingSteps = 0) (cfg : Config)
    (t : Trigger) (n : Nat) (hm : (ccNext cfg cc t n).mode = .autonomous) :
    (ccNext cfg cc t n).remainingSteps = 0 := by
  rw [ccNext_eq_ite] at hm ⊢
  split_ifs at hm ⊢
  · rfl
  · rw [stepLoad_mode] at hm
    cases hm
  · rw [countDown_mode] at hm
    exact Nat.le_zero.1 (h hm ▸ countDown_remainingSteps_le cc)

/-- Without a STEP the count never grows (rule R134 (2)). -/
theorem ccNext_remainingSteps_le {t : Trigger} (h : t ≠ .step) (cfg : Config) (cc : CycleControl) (n : Nat) :
    (ccNext cfg cc t n).remainingSteps ≤ cc.remainingSteps := by
  rw [ccNext_eq_ite]
  split_ifs with hstart hpause hstep
  · exact Nat.zero_le _
  · exact Nat.zero_le _
  · exact absurd hstep.1 h
  · exact countDown_remainingSteps_le cc

/-! ### Cycle Control at the edge -/

theorem edgeCore_cc_of_low {s : State} (h : (currentEvent s).rst = .low) (d : Decoded) (e : CommandEffect) :
    (edgeCore s d e).cc = ccNext s.cfg s.core.cc (gatedTrigger s e) (stepOperand s.cfg.layout d) := by
  rw [edgeCore_of_low h, nextCc, effectiveCore_of_low h]

/-- The snapshot is the count that is latched beside it (rule R135). -/
theorem edgeCore_snapshot (s : State) (d : Decoded) (e : CommandEffect) :
    (edgeCore s d e).pipe.cycleCount = (edgeCore s d e).cc.remainingSteps := by
  unfold edgeCore
  split <;> rfl

theorem gatedTrigger_effectOf (s : State) (i : Instr) :
    gatedTrigger s (effectOf i) = if accept s then commandTrigger i else .none := by
  rw [gatedTrigger, effectOf_trigger]

/-- An edge without reset counts a clocked edge by the stored state alone (rule R130). -/
theorem clockedEdges_of_low {s : State} (h : (currentEvent s).rst = .low) (d : Decoded) (e : CommandEffect) :
    (clockEdge s d e).peripheral.clockedEdges =
      s.peripheral.clockedEdges + if clockEnable s.core.cc then 1 else 0 := by
  rw [clockedEdges_clockEdge, effectiveCore_of_low h]

/-- A cycle that can accept no command with trigger `t` does not raise it. -/
theorem NoTrigger.gatedTrigger_ne {s : State} {ts : List Trigger} (h : NoTrigger ts s) {t : Trigger} (ht : t ∈ ts)
    (hnone : t ≠ .none) : Machine.gatedTrigger s (headEffect s) ≠ t := by
  rintro rfl
  exact h.gatedTrigger.elim hnone fun hn => hn ht

/-- An accepted command gives Cycle Control its trigger and its value field. -/
theorem cc_of_exec {i : Instr} {s t : State} (hexec : exec i s = .next t) (h : TakesCommand s) :
    t.core.cc = ccNext s.cfg s.core.cc (commandTrigger i)
      (trunc s.cfg.layout.value.width (fieldsOf s.cfg.opcodes i).value) := by
  obtain ⟨-, rfl⟩ := exec_eq_next.1 hexec
  rw [clockEdge_core, edgeCore_of_takesCommand h, effectOf_trigger]

/-- The cycle of a STEP hands its count to Cycle Control in full, if the value field has room for it. -/
theorem cc_of_step_command {s t : State} {a d n : Nat} (hexec : exec (.step a d n) s = .next t) (h : TakesCommand s)
    (hn : n < 2 ^ s.cfg.layout.value.width) : t.core.cc = ccNext s.cfg s.core.cc .step n :=
  (cc_of_exec hexec h).trans (congrArg (ccNext s.cfg s.core.cc .step) (trunc_eq_self hn))

theorem modeBit_eq_ite (m : Mode) : modeBit m = if m = .autonomous then 1 else 0 := by
  cases m <;> rfl

/-! ### Runs of several cycles -/

/-- An undisturbed step only counts, and clocks the experiment while there is a count. -/
theorem step_undisturbed {s t : State} {n : Nat} (h : Undisturbed s) (hcc : s.core.cc = ⟨.manual, n⟩)
    (hstep : step s = .next t) :
    t.core.cc = ⟨.manual, n - 1⟩ ∧
      t.peripheral.clockedEdges = s.peripheral.clockedEdges + min n 1 := by
  obtain ⟨⟨-, hlow⟩, hquiet⟩ := h
  obtain ⟨-, rfl⟩ := step_eq_next.1 hstep
  constructor
  · rw [clockEdge_core, edgeCore_cc_of_low hlow, hcc,
      ccNext_of_manual rfl (hquiet.gatedTrigger_ne (by simp) nofun) (hquiet.gatedTrigger_ne (by simp) nofun),
      countDown_manual]
  · rw [clockedEdges_of_low hlow, hcc]
    simp only [clockEnable_manual_iff]
    split <;> omega

/-- A count runs down by one a cycle, each of its cycles a clocked one, until it is 0. -/
theorem runsTo_undisturbed {k : Nat} : ∀ {s t : State} {n : Nat}, s.core.cc = ⟨.manual, n⟩ →
    RunsTo Undisturbed k s t →
    t.core.cc = ⟨.manual, n - k⟩ ∧ t.peripheral.clockedEdges = s.peripheral.clockedEdges + min n k := by
  induction k with
  | zero =>
    rintro s t n hcc rfl
    exact ⟨hcc, by simp⟩
  | succ k ih =>
    rintro s t n hcc ⟨u, hu, hstep, hrest⟩
    obtain ⟨hccu, hedge⟩ := step_undisturbed hu hcc hstep
    obtain ⟨hcct, hedges⟩ := ih hccu hrest
    refine ⟨?_, by omega⟩
    rw [hcct, Nat.sub_sub, Nat.add_comm 1]

/-- Without a PAUSE a step from AUTONOMOUS stays there, and clocks the experiment. -/
theorem step_unpaused {s t : State} (h : Unpaused s) (hcc : s.core.cc = ⟨.autonomous, 0⟩) (hstep : step s = .next t) :
    t.core.cc = ⟨.autonomous, 0⟩ ∧ t.peripheral.clockedEdges = s.peripheral.clockedEdges + 1 := by
  obtain ⟨⟨-, hlow⟩, hpause⟩ := h
  obtain ⟨-, rfl⟩ := step_eq_next.1 hstep
  constructor
  · rw [clockEdge_core, edgeCore_cc_of_low hlow, hcc]
    by_cases hstart : gatedTrigger s (headEffect s) = .start
    · rw [hstart, ccNext_start]
    · exact ccNext_of_autonomous rfl hstart (hpause.gatedTrigger_ne (by simp) nofun) _ _
  · rw [clockedEdges_of_low hlow, hcc]
    rfl

theorem runsTo_unpaused {k : Nat} : ∀ {s t : State}, s.core.cc = ⟨.autonomous, 0⟩ → RunsTo Unpaused k s t →
    t.core.cc = ⟨.autonomous, 0⟩ ∧ t.peripheral.clockedEdges = s.peripheral.clockedEdges + k := by
  induction k with
  | zero =>
    rintro s t hcc rfl
    exact ⟨hcc, rfl⟩
  | succ k ih =>
    rintro s t hcc ⟨u, hu, hstep, hrest⟩
    obtain ⟨hccu, hedge⟩ := step_unpaused hu hcc hstep
    obtain ⟨hcct, hedges⟩ := ih hccu hrest
    exact ⟨hcct, by omega⟩

/-! ### The statements -/

/-- Settles O20: a high reset line gives the reset state; with it low the trigger of an accepted command picks the line
of rule R131. -/
theorem cycleControlNextState : Obligations.CycleControlNextState := by
  intro i s h
  refine ⟨_, exec_of_whole h i, fun hhigh => ?_, fun hlow => ?_⟩
  · rw [clockEdge_core, edgeCore_of_high hhigh]
    rfl
  · rw [clockEdge_core, edgeCore_cc_of_low hlow, gatedTrigger_effectOf, ccNext_eq_ite, stepLoad_eq_ite]
    rfl

/-- Settles O21: neither START nor STEP is raised, so the counting arm is in force, and a count is what clocks. -/
theorem countingMatchesClockedEdges : Obligations.CountingMatchesClockedEdges := by
  intro i s h hm hk htrig
  obtain ⟨hstart, hstep⟩ : gatedTrigger s (effectOf i) ≠ .start ∧ gatedTrigger s (effectOf i) ≠ .step := by
    rw [gatedTrigger_effectOf]
    split
    · exact htrig ‹_›
    · exact ⟨nofun, nofun⟩
  have hcc : (edgeCore s (fieldsOf s.cfg.opcodes i) (effectOf i)).cc = ⟨.manual, s.core.cc.remainingSteps - 1⟩ := by
    rw [edgeCore_cc_of_low h.2, ccNext_of_manual hm hstart hstep, countDown_of_manual hm]
  refine ⟨_, exec_of_whole h.whole i, ?_, ?_, ?_⟩
  · rw [clockEdge_core, hcc]
  · rw [clockEdge_core, hcc]
    exact Nat.sub_one_add_one hk
  · rw [clockedEdges_of_low h.2, if_pos ((clockEnable_iff _).2 (.inr ⟨hm, hk⟩))]

/-- Settles O22: the reset state holds no count, and `ccNext` keeps both parts. -/
theorem autonomousHoldsNoCount : Obligations.AutonomousHoldsNoCount := by
  refine ⟨nofun, fun s t hidle hstep => ?_⟩
  obtain ⟨hwhole, rfl⟩ := step_eq_next.1 hstep
  rw [clockEdge_core]
  rcases hwhole.low_or_high with hlow | hhigh
  · rw [edgeCore_cc_of_low hlow]
    exact ⟨ccNext_autonomous_idle hidle _ _ _, fun hno =>
      ccNext_remainingSteps_le (hno.gatedTrigger_ne (List.mem_singleton_self _) nofun) _ _ _⟩
  · rw [edgeCore_of_high hhigh]
    exact ⟨nofun, fun _ => Nat.zero_le _⟩

/-- Settles O28: in MANUAL the STEP arm loads by the policy, in AUTONOMOUS the trigger does nothing. -/
theorem stepCommandCompletes : Obligations.StepCommandCompletes := by
  intro s a d n h hn
  have hexec := exec_of_whole h.whole (.step a d n)
  have hcc := cc_of_step_command hexec h hn
  have hmanual (hm : s.core.cc.mode = .manual) := hcc.trans (ccNext_step_of_manual hm s.cfg n)
  exact ⟨_, hexec, fun hm hload => (hmanual hm).trans (stepLoad_of_load hload n),
    fun hm hk hp => (hmanual hm).trans (stepLoad_of_ignore hk hp n),
    fun hm hk hp => (hmanual hm).trans (stepLoad_of_extend hk hp n),
    fun hm => hcc.trans (ccNext_step_of_autonomous hm s.cfg n),
    pipe_of_exec hexec h, last_of_exec hexec h, answersNext_of_exec hexec h rfl ⟨_, rfl⟩⟩

/-- Settles O29: the start trigger leaves one state, whose enable is on. -/
theorem startCommandCompletes : Obligations.StartCommandCompletes := by
  intro s a d v h
  have hexec := exec_of_whole h.whole (.start a d v)
  exact ⟨_, hexec, edgeCore_of_takesCommand h _ _, clockEnable_of_autonomous (congrArg _ (cc_of_exec hexec h)),
    last_of_exec hexec h, answersNext_of_exec hexec h rfl ⟨_, _, rfl⟩⟩

/-- Settles O30: the pause trigger applies in AUTONOMOUS alone; in MANUAL the counting arm stays in force. -/
theorem pauseCommandCompletes : Obligations.PauseCommandCompletes := by
  intro s a d v h
  have hexec := exec_of_whole h.whole (.pause a d v)
  have hcc := cc_of_exec hexec h
  refine ⟨_, hexec, fun hm => ?_, fun hm => hcc.trans (ccNext_pause_of_manual hm _ _), pipe_of_exec hexec h,
    last_of_exec hexec h, answersNext_of_exec hexec h rfl ⟨_, _, rfl⟩⟩
  have hidle := hcc.trans (ccNext_pause_of_autonomous hm _ _)
  exact ⟨clockEnable_of_autonomous hm, hidle, congrArg clockEnable hidle⟩

/-- Settles O31: a STATUS only counts, and its row of the answer carries the mode bit and the snapshot. -/
theorem statusCompletes : Obligations.StatusCompletes := by
  intro s a d v h
  have hexec := exec_of_whole h.whole (.status a d v)
  refine ⟨_, hexec, core_of_exec_no_trigger hexec h rfl, last_of_exec hexec h, answersNext_of_exec hexec h rfl ?_⟩
  rw [← modeBit_eq_ite]
  rfl

/-- Settles O44: the STEP's own cycle is idle and loads `n`, which then runs down cycle by cycle. -/
theorem stepClocksExactlyN : Obligations.StepClocksExactlyN := by
  intro s t u a d n k h hidle hn hexec hrun
  have hcc : t.core.cc = ⟨.manual, n⟩ := by
    rw [cc_of_step_command hexec h hn, hidle]
    exact stepLoad_of_load (.inl rfl) n
  have hown : t.peripheral.clockedEdges = s.peripheral.clockedEdges := by
    obtain ⟨-, rfl⟩ := exec_eq_next.1 hexec
    rw [clockedEdges_of_low h.1.2, hidle]
    rfl
  obtain ⟨hccu, hedges⟩ := runsTo_undisturbed hcc hrun
  refine ⟨hown, hown ▸ hedges, hccu, ?_⟩
  rw [hccu, clockEnable_manual_iff, Nat.sub_ne_zero_iff_lt]

/-- Settles O45: START leaves AUTONOMOUS, and every cycle without a PAUSE keeps it. -/
theorem startClocksUntilPause : Obligations.StartClocksUntilPause := by
  intro s t u a d v k h hexec hrun
  obtain ⟨hccu, hedges⟩ := runsTo_unpaused (cc_of_exec hexec h) hrun
  exact ⟨hccu, clockEnable_of_autonomous (congrArg _ hccu), hedges⟩

/-- Settles O19: the enable is a function of the state the cycle reads. -/
theorem clockEnableIsAFunctionOfState : Obligations.ClockEnableIsAFunctionOfState := fun i _ h =>
  ⟨_, _, exec_of_whole h i, clockEdge_last .., clockEnable_iff _⟩

/-- Settles O23: the edge latches the count it leaves. -/
theorem snapshotIsTheCountAfterTheEdge : Obligations.SnapshotIsTheCountAfterTheEdge := fun i _ h =>
  ⟨_, exec_of_whole h i, edgeCore_snapshot ..⟩

end Sys2Proof.Machine

/-!
PROOFS. The statements of 42_response_compose.md: when a response is enqueued and when it is lost, the fields it
carries, and the one cycle between a command and its answer.
-/

namespace Sys2Proof.Machine

/-! ### The enqueue (rules R160, R167) -/

/-- The edge loads a command into the pipeline register exactly if one is accepted in a cycle without reset. -/
theorem edgeCore_nop (s : State) (d : Decoded) (e : CommandEffect) :
    (edgeCore s d e).pipe.nop = !(accept s && !resetHigh s) := by
  unfold edgeCore
  cases resetHigh s <;> simp [CoreState.reset, nextPipe, nopFlag]

/-- A cycle with the reset line high reads an empty pipeline register, whatever is latched (rule R222). -/
theorem effectiveCore_nop (s : State) : (effectiveCore s).pipe.nop = !(!s.core.pipe.nop && !resetHigh s) := by
  unfold effectiveCore
  cases resetHigh s <;> simp [CoreState.reset]

theorem txEnqueue_eq (s : State) : txEnqueue s = (!s.core.pipe.nop && !resetHigh s && !txFull s) := by
  rw [txEnqueue, effectiveCore_nop, Bool.not_not]

/-- The state after an edge answers exactly a command that the edge accepted, neither cycle being a reset cycle. -/
theorem txEnqueue_clockEdge (s : State) (d : Decoded) (e : CommandEffect) :
    txEnqueue (clockEdge s d e) =
      (accept s && !resetHigh s && !resetHigh (clockEdge s d e) && !txFull (clockEdge s d e)) := by
  rw [txEnqueue_eq, clockEdge_core, edgeCore_nop, Bool.not_not]

/-- A full transmit queue takes up nothing at the edge; the host's removals are all that changes it. -/
theorem tx_clockEdge_of_txFull {s : State} (h : txFull s = true) (d : Decoded) (e : CommandEffect) :
    (clockEdge s d e).tx = s.tx.drop (currentEvent s).txPop := by
  have henq : txEnqueue s = false := by rw [txEnqueue, h, Bool.not_true, Bool.and_false]
  simp [edgeTx, henq]

/-! ### The fields by the class of the answered command (rule R162) -/

theorem responseAddress_eq_ite (c : CommandClass) (p : PipelineRegister) (cycle : Nat) :
    responseAddress c p cycle = if c = .nop then Config.drawAddress cycle else p.address := by
  cases c <;> rfl

theorem responseData_eq_ite (c : CommandClass) (cc : CycleControl) (readData cycle : Nat) :
    responseData c cc readData cycle =
      if c = .read then readData else if c = .status then modeBit cc.mode else Config.drawData cycle := by
  cases c <;> rfl

theorem responseValue_eq_ite (c : CommandClass) (p : PipelineRegister) (cycle : Nat) :
    responseValue c p cycle = if c = .step ∨ c = .status then p.cycleCount else Config.drawValue cycle := by
  cases c <;> rfl

/-! ### The statements -/

/-- Settles O32: a full transmit queue blocks the enqueue, and with it acceptance, so the edge leaves no command to be
answered later. -/
theorem enqueueRechecksTheFullFlag : Obligations.EnqueueRechecksTheFullFlag := fun i _ h =>
  ⟨_, _, exec_of_whole h i, clockEdge_last .., rfl, rfl, fun hfull =>
    ⟨tx_clockEdge_of_txFull hfull _ _, edgeCore_nop_of_not_accept (accept_eq_false (.inr hfull)) _ _⟩⟩

/-- Settles O33: the don't-care cells carry the draws of the cycle. -/
theorem responseFieldsFollowTheTable : Obligations.ResponseFieldsFollowTheTable := by
  intro i s h
  refine ⟨_, _, Config.drawAddress s.cycle, Config.drawData s.cycle, Config.drawValue s.cycle, exec_of_whole h i,
    clockEdge_last .., ?_⟩
  rw [outputsOf_txData, responseWord, responseAddress_eq_ite, responseData_eq_ite, responseValue_eq_ite,
    modeBit_eq_ite]
  rfl

/-- Settles O34: the pipeline register holds a command in the second cycle exactly if the first accepted one, and a
reset in either cycle clears it. -/
theorem oneResponseOneCycleLater : Obligations.OneResponseOneCycleLater := by
  intro s t u ob ob' hst hob htu hob'
  obtain ⟨-, rfl⟩ := step_eq_next.1 hst
  obtain ⟨-, rfl⟩ := step_eq_next.1 htu
  obtain rfl := Option.some.inj hob
  obtain rfl := Option.some.inj hob'
  exact txEnqueue_clockEdge ..

end Sys2Proof.Machine

/-!
PROOFS. The statements of 43_tick.md: the step against the tick function of rule R180, the two refusals of rules R181
and R184, and what a reset cycle forces.
-/

namespace Sys2Proof.Machine

/-! ### The two refusals (93_implementation_defined.md) -/

theorem runCommand_of_not_wf {s : State} (h : s.cfg.wf = false) (d : Decoded) (e : CommandEffect) :
    runCommand d e s = .refused .configurationNotWellFormed := by
  rw [runCommand, if_neg (by simp [h])]

theorem runCommand_of_midCycle {s : State} (h : s.cfg.wf = true) (hm : (currentEvent s).rst = .midCycle)
    (d : Decoded) (e : CommandEffect) : runCommand d e s = .refused .resetChangesMidCycle := by
  rw [runCommand, if_pos h, hm]

/-! ### A reset cycle (rules R181, R203, R220) -/

theorem txEnqueue_of_high {s : State} (h : (currentEvent s).rst = .high) : txEnqueue s = false := by
  simp [txEnqueue_eq, resetHigh_eq_true h]

theorem clockEnable_of_high {s : State} (h : (currentEvent s).rst = .high) :
    clockEnable (effectiveCore s).cc = false := by
  rw [effectiveCore_of_high h]
  rfl

/-- Nothing is appended at the edge; only the host's removals change the queue. -/
theorem tx_clockEdge_of_high {s : State} (h : (currentEvent s).rst = .high) (d : Decoded) (e : CommandEffect) :
    (clockEdge s d e).tx = s.tx.drop (currentEvent s).txPop := by
  simp [edgeTx, txEnqueue_of_high h]

theorem clockedEdges_of_high {s : State} (h : (currentEvent s).rst = .high) (d : Decoded) (e : CommandEffect) :
    (clockEdge s d e).peripheral.clockedEdges = s.peripheral.clockedEdges := by
  rw [clockedEdges_clockEdge, clockEnable_of_high h]
  rfl

/-! ### The lines of the tick function (rule R180), each against the operation the machine runs -/

theorem stepLoad_eq_tickRearm (cfg : Config) (cc : CycleControl) (n : Nat) :
    stepLoad cfg cc n = ⟨.manual, tickRearm cfg cc.remainingSteps n⟩ := by
  rw [stepLoad_eq_ite, tickRearm]
  split_ifs <;> rfl

/-- In AUTONOMOUS the count does not matter, so the tick's enable needs no second look at the mode. -/
theorem clockEnable_eq_or (cc : CycleControl) :
    clockEnable cc = (cc.mode == .autonomous || cc.remainingSteps != 0) := by
  cases h : cc.mode <;> simp [clockEnable, h]

/-- The strobes of the head command, by its class. -/
theorem strobes_head (s : State) :
    (accept s && (headEffect s).writeEnable) = (accept s && classOf s.cfg.opcodes (headFields s).opcode == .write) ∧
      (accept s && (headEffect s).periphReset) =
        (accept s && classOf s.cfg.opcodes (headFields s).opcode == .reset) := by
  cases ha : accept s with
  | false => exact ⟨rfl, rfl⟩
  | true =>
    obtain ⟨hwrite, hreset, -⟩ := headEffect_of_accept ha
    rw [hwrite, hreset]
    exact ⟨rfl, rfl⟩

/-- The triggers of the head command, by its class. -/
theorem gatedTrigger_head (s : State) :
    (gatedTrigger s (headEffect s) = .start ↔
        (accept s && classOf s.cfg.opcodes (headFields s).opcode == .start) = true) ∧
      (gatedTrigger s (headEffect s) = .pause ↔
        (accept s && classOf s.cfg.opcodes (headFields s).opcode == .pause) = true) ∧
      (gatedTrigger s (headEffect s) = .step ↔
        (accept s && classOf s.cfg.opcodes (headFields s).opcode == .step) = true) := by
  cases ha : accept s with
  | false => simp [gatedTrigger, ha]
  | true =>
    obtain ⟨-, -, htrigger⟩ := headEffect_of_accept ha
    rw [gatedTrigger, if_pos ha, htrigger]
    cases classOf s.cfg.opcodes (headFields s).opcode <;> decide

/-- `ccNext` as the tick function lists it, the trigger and the mode tested in one line. -/
theorem nextCc_head (s : State) :
    nextCc s (headFields s) (headEffect s) =
      if accept s && classOf s.cfg.opcodes (headFields s).opcode == .start then ⟨.autonomous, 0⟩
      else if (accept s && classOf s.cfg.opcodes (headFields s).opcode == .pause) &&
          (effectiveCore s).cc.mode == .autonomous then ⟨.manual, 0⟩
      else if (accept s && classOf s.cfg.opcodes (headFields s).opcode == .step) &&
          (effectiveCore s).cc.mode == .manual then
        ⟨.manual, tickRearm s.cfg (effectiveCore s).cc.remainingSteps (headFields s).value⟩
      else if (effectiveCore s).cc.mode == .manual && (effectiveCore s).cc.remainingSteps != 0 then
        ⟨.manual, (effectiveCore s).cc.remainingSteps - 1⟩
      else (effectiveCore s).cc := by
  obtain ⟨hstart, hpause, hstep⟩ := gatedTrigger_head s
  rw [nextCc, ccNext_eq_ite, stepLoad_eq_tickRearm, stepOperand_headFields]
  simp only [hstart, hpause, hstep, countDown, Bool.and_eq_true, beq_iff_eq, bne_iff_ne]

theorem responseWord_eq_tick (s : State) :
    responseWord s = (tick s.cfg s.core (inputsOf s) (drawOf s)).1.txData := by
  rw [responseWord, responseAddress_eq_ite, responseData_eq_ite, responseValue_eq_ite]
  simp only [tick, Bool.or_eq_true, beq_iff_eq]
  rfl

theorem outputsOf_eq_tick (s : State) :
    outputsOf s (headFields s) (headEffect s) = (tick s.cfg s.core (inputsOf s) (drawOf s)).1 := by
  obtain ⟨hwrite, hreset⟩ := strobes_head s
  rw [outputsOf, hwrite, hreset, clockEnable_eq_or, responseWord_eq_tick]
  rfl

theorem edgeCore_eq_tick (s : State) :
    edgeCore s (headFields s) (headEffect s) = (tick s.cfg s.core (inputsOf s) (drawOf s)).2 := by
  rw [edgeCore, nextPipe, nextCc_head]
  rfl

/-! ### The statements -/

/-- Settles O10: the outputs and the next core state are the two halves of the tick function. -/
theorem stepFollowsTheTick : Obligations.StepFollowsTheTick := fun s h =>
  ⟨_, _, step_of_whole h, clockEdge_last .., rfl, Prod.ext (outputsOf_eq_tick s) (edgeCore_eq_tick s)⟩

/-- Settles O11: a command and a step are both the one shared cycle, which tests the configuration and then the reset
line. -/
theorem refusedOnlyOutsideTheCycleModel : Obligations.RefusedOnlyOutsideTheCycleModel := by
  intro s i
  refine ⟨fun hwf => ?_, fun hwf hmid => ?_, fun hwf hwhole => ?_⟩
  · rw [exec_eq_runCommand, step_eq_runCommand]
    exact ⟨runCommand_of_not_wf hwf _ _, runCommand_of_not_wf hwf _ _⟩
  · rw [exec_eq_runCommand, step_eq_runCommand]
    exact ⟨runCommand_of_midCycle hwf hmid _ _, runCommand_of_midCycle hwf hmid _ _⟩
  · exact ⟨⟨_, exec_of_whole ⟨hwf, hwhole⟩ i⟩, ⟨_, step_of_whole ⟨hwf, hwhole⟩⟩⟩

/-- Settles O47: the cycle reads the reset state, which enqueues and clocks nothing, and the edge loads it. -/
theorem resetLineForcesTheResetState : Obligations.ResetLineForcesTheResetState := fun i _ hwf hhigh =>
  ⟨_, _, exec_of_whole ⟨hwf, by simp [hhigh]⟩ i, clockEdge_last .., edgeCore_of_high hhigh _ _, txEnqueue_of_high hhigh,
    clockEnable_of_high hhigh, rfl, tx_clockEdge_of_high hhigh _ _, clockedEdges_of_high hhigh _ _⟩

end Sys2Proof.Machine

/-!
PROOFS. The statements of 70_reset_and_hazards.md: the response lost at the transmit queue's last free slot, the EX
stage and the pipeline register in a reset cycle, and the first command after a reset.
-/

namespace Sys2Proof.Machine

/-! ### The transmit queue's last free slot (rules R226, R227) -/

theorem length_tx_clockEdge (s : State) (d : Decoded) (e : CommandEffect) :
    (clockEdge s d e).tx.length = s.tx.length - removedWords s + if txEnqueue s then 1 else 0 := by
  rw [clockEdge_tx, edgeTx, List.length_append, List.length_drop, removedWords, min_comm, tsub_min, outputsOf_txEnqueue]
  cases txEnqueue s <;> rfl

theorem txFull_iff (s : State) : txFull s = true ↔ s.cfg.txDepth ≤ s.tx.length + s.cfg.txFullMargin :=
  decide_eq_true_iff

/-- The edge turns the full flag on exactly by a response that takes the last free slot above the margin while the host
removes no word. -/
theorem txFull_clockEdge_iff {s : State} (h : txFull s = false) (d : Decoded) (e : CommandEffect) :
    txFull (clockEdge s d e) = true ↔
      txEnqueue s = true ∧ freeSlots s = s.cfg.txFullMargin + 1 ∧ removedWords s = 0 := by
  have hroom : ¬s.cfg.txDepth ≤ s.tx.length + s.cfg.txFullMargin := by simp [← txFull_iff, h]
  have hremoved : removedWords s ≤ s.tx.length := Nat.min_le_right _ _
  rw [txFull_iff, length_tx_clockEdge, clockEdge_cfg, freeSlots]
  cases txEnqueue s with
  | false =>
    simp only [Bool.false_eq_true, if_false, false_and, iff_false]
    omega
  | true =>
    simp only [if_true, true_and]
    omega

theorem txFull_eq_false_of_accept {s : State} (h : accept s = true) : txFull s = false := by
  simp only [accept, Bool.and_eq_true, Bool.not_eq_true'] at h
  exact h.2

/-- Between two cycles without reset the second loses a response exactly if the first accepted a command and left the
transmit queue full. -/
theorem losesResponse_clockEdge {s : State} {d : Decoded} {e : CommandEffect} (hs : (currentEvent s).rst = .low)
    (ht : (currentEvent (clockEdge s d e)).rst = .low) :
    losesResponse (clockEdge s d e) = (accept s && txFull (clockEdge s d e)) := by
  rw [losesResponse, effectiveCore_of_low ht, clockEdge_core, edgeCore_nop, resetHigh_eq_false hs]
  simp

/-! ### The EX stage in a reset cycle (rule R224) -/

theorem accept_of_active {s : State} (h : s.cfg.exInReset = .active) : accept s = (!s.rx.isEmpty && !txFull s) := by
  rw [accept, exAllowed, h]
  rfl

theorem accept_of_gated {s : State} (h : s.cfg.exInReset = .gated) (hhigh : (currentEvent s).rst = .high) :
    accept s = false := by
  simp [accept, exAllowed, h, resetHigh_eq_true hhigh]

theorem wholeCycle_of_high {s : State} (hwf : s.cfg.wf = true) (h : (currentEvent s).rst = .high) : WholeCycle s :=
  ⟨hwf, by simp [h]⟩

/-- A strobe stated by when it is high, as the Boolean expression on the wire. -/
theorem eq_and_beq_of_iff {strobe acc : Bool} {op value : Nat} (h : strobe = true ↔ acc = true ∧ op = value) :
    strobe = (acc && op == value) := by
  rw [Bool.eq_iff_iff, h, Bool.and_eq_true, beq_iff_eq]

/-- The edge that ends a reset cycle leaves no command to be answered, accepted in it or before it (rule R222). -/
theorem nop_clockEdge_of_high {s : State} (h : (currentEvent s).rst = .high) (d : Decoded) (e : CommandEffect) :
    (clockEdge s d e).core.pipe.nop = true :=
  congrArg (·.pipe.nop) (edgeCore_of_high h d e)

/-! ### The statements -/

/-- Settles O36: the first cycle accepts the command whose response is lost, so its queue has room, and its edge is what
fills it. -/
theorem responseLostExactlyWhen : Obligations.ResponseLostExactlyWhen := by
  intro s t hs hstep ht
  obtain ⟨-, rfl⟩ := step_eq_next.1 hstep
  refine ⟨_, _, step_of_whole ht.whole, clockEdge_last .., ?_⟩
  rw [losesResponse_clockEdge hs.2 ht.2, Bool.and_eq_true]
  exact and_congr_right fun ha => txFull_clockEdge_iff (txFull_eq_false_of_accept ha) _ _

/-- Settles O48: `EX_IN_RESET` gates acceptance and with it the strobes; under both values the edge clears the pipeline
register. -/
theorem exStageDuringReset : Obligations.ExStageDuringReset := by
  intro s hwf hhigh
  refine ⟨_, _, step_of_whole (wholeCycle_of_high hwf hhigh), clockEdge_last .., fun hactive => ?_, fun hgated => ?_,
    fun _ _ => txEnqueue_step_of_nop (nop_clockEdge_of_high hhigh _ _)⟩
  · exact ⟨accept_of_active hactive, eq_and_beq_of_iff (pWriteEnable_head hwf), eq_and_beq_of_iff (pReset_head hwf)⟩
  · have hacc := accept_of_gated hgated hhigh
    exact ⟨hacc, strobes_of_not_accept hacc _ _⟩

/-- Settles O49: the reset cycle reads the reset state in place of the pipeline register, and its edge clears it. -/
theorem straddlingCommandGetsNoResponse : Obligations.StraddlingCommandGetsNoResponse := by
  intro s t h hstep hhigh
  obtain ⟨-, rfl⟩ := step_eq_next.1 hstep
  have hnop := nop_clockEdge_of_high hhigh
  exact ⟨_, _, _, clockEdge_last .., accept_of_takesCommand h,
    step_of_whole (wholeCycle_of_high h.1.1 hhigh), clockEdge_last .., txEnqueue_of_high hhigh, if_pos (hnop _ _),
    fun _ _ => txEnqueue_step_of_nop (hnop _ _)⟩

/-- Settles O50: the first cycle has nothing to answer, and its command is what the next one answers. -/
theorem firstCommandAfterReset : Obligations.FirstCommandAfterReset := by
  intro s hcore h
  refine ⟨_, _, step_of_whole h.whole, clockEdge_last .., accept_of_takesCommand h,
    txEnqueue_of_nop (congrArg (·.pipe.nop) hcore), ?_, fun ht hfull =>
      ⟨_, _, step_of_whole ht.whole, clockEdge_last .., txEnqueue_of_pending ht ?_ hfull⟩⟩
  · rw [outputsOf_pClockEnable, effectiveCore_of_core_reset hcore, clockEnable_reset]
  · rw [clockEdge_core, edgeCore_of_takesCommand h]

end Sys2Proof.Machine
